-- ==== Sys2Proof/Word.lean ====
section
/-! DEFINITION. Word.lean: the width of a command word as a function of `FW` (R6, R39), the slices of a word (R9), and the type
of a datum's code (R7). A word is the unsigned integer it is, a natural number below `2 ^ CW` (log 1). `FW` itself is a
parameter, `FW` of Config.lean. -/

namespace Sys2Proof

/-- `CW = FW + 2`, the width of a command word (R6, R39). -/
abbrev commandWidth (fw : ℕ) : ℕ := fw + 2

/-- A datum of `NUM.num` (R7), held as the unsigned integer its code `NUM.enc v` is (logs 1 and 2). -/
abbrev Datum := ℕ

/-- The slice `w[hi:lo]`, read as an unsigned integer (R9). -/
def slice (hi lo w : ℕ) : ℕ := w / 2 ^ lo % 2 ^ (hi + 1 - lo)

end Sys2Proof
end

