-- ==== Sys2Proof/Syntax.lean ====
section
/-! DEFINITION. Syntax.lean: the waveforms (R12, R42) and the commands (R41), one constructor per row of the opcode table. -/

namespace Sys2Proof

/-- The closed enumeration of waveforms, in the order of their codes (R42). -/
inductive Waveform where
  | sine
  | square
  | saw
  | triangle
  deriving DecidableEq, Repr, Inhabited

/-- The three commands of the block (R41). -/
inductive Instr where
  /-- `next_sample`, R68: no operand. -/
  | nextSample
  /-- `set_waveform w`, R70. -/
  | setWaveform (w : Waveform)
  /-- `set_frequency`, R71: the operand field `arg.f` as it stands in the word, FW bits read as an unsigned integer; the
  datum it spells is `NUM.dec arg` (R43), which the meaning applies (log 2). -/
  | setFrequency (arg : ℕ)
  deriving DecidableEq, Repr

end Sys2Proof
end

