-- ==== Sys2Proof/Machine/Operands.lean ====
section
/-! DEFINITION. Machine/Operands.lean: the fields of a command word (R40) and the operand forms (R42, R43). A word is the
unsigned integer below `2 ^ (FW + 2)` that it is, so a field that runs up to the top bit is a quotient, whatever `FW` is: the
lemmas argField_eq_slice and reservedField_eq_slice of Laws/Decode.lean say that these are the slices of R40. -/

namespace Sys2Proof

/-- `op = cmd[1:0]` (R40). -/
def opField (cmd : ℕ) : BitVec 2 :=
  BitVec.ofNat 2 cmd

/-- `arg = cmd[CW-1:2]` (R40); with `op = 0b10` it is `arg.f`. -/
def argField (cmd : ℕ) : ℕ :=
  cmd / 4

/-- `arg.w = arg[1:0]` (R40). -/
def waveformField (arg : ℕ) : BitVec 2 :=
  BitVec.ofNat 2 arg

/-- `arg.rsv = arg[FW-1:2]` (R40). -/
def reservedField (arg : ℕ) : ℕ :=
  arg / 4

/-- The waveform a 2-bit code names; all four codes are used (R42). -/
def waveformOfCode (c : BitVec 2) : Waveform :=
  if c = 0b00#2 then .sine
  else if c = 0b01#2 then .square
  else if c = 0b10#2 then .saw
  else .triangle

/-- The 2-bit code of a waveform, which is also what the `waveform` register holds (R14, R42). -/
def waveformCode (w : Waveform) : BitVec 2 :=
  match w with
  | .sine => 0b00#2
  | .square => 0b01#2
  | .saw => 0b10#2
  | .triangle => 0b11#2

/-- `{arg, op}`: the command word of an operand field and an opcode (R40). -/
def commandWord (arg : ℕ) (op : BitVec 2) : ℕ :=
  arg * 4 + op.toNat

/-- `op` of each command (R41). -/
def opcodeOf (i : Instr) : BitVec 2 :=
  match i with
  | .nextSample => 0b00#2
  | .setWaveform _ => 0b01#2
  | .setFrequency _ => 0b10#2

end Sys2Proof
end

