-- ==== Sys2Proof/Machine/Synthesis.lean ====
section
/-! DEFINITION. Machine/Synthesis.lean: the ideal synthesis function `synth_ideal` over the reals (40_waveform_synthesis.md,
R51 to R62), the Nyquist truncation, and the source's loop (R59). It is a function of a frequency `f > 0` (`Freq`): the
formulas are extended to no other (R61). The function is the yardstick of R66: what the block
emits is `NUM.SYNTH`, held to this function within `TOL`. Real arithmetic has no executable code in Lean, hence the
word noncomputable here; no step of the machine computes with it (log 18). -/

namespace Sys2Proof

/-- A frequency in the domain of the synthesis: a real number `f > 0` (R51, R61). -/
abbrev Freq := { f : ℝ // 0 < f }

/-- The `k`-th harmonic at phase `p` (R52): `sin(p · (f·k) · 2·pi / sr)`. The formulas make sense for any real `p` (R51). -/
noncomputable def harm (f : Freq) (k sr : ℕ) (p : ℝ) : ℝ :=
  Real.sin (p * ((f : ℝ) * k) * 2 * Real.pi / sr)

/-- Harmonic `k` is included in a sum: `f · k < sr / 2`, strict and exact (R53, C1). -/
def Included (f : Freq) (k sr : ℕ) : Prop :=
  (f : ℝ) * k < (sr : ℝ) / 2

/-- `K_all(f, sr) = ceil(sr / (2·f)) - 1` (R54). -/
noncomputable def kAll (f : Freq) (sr : ℕ) : ℕ :=
  ⌈(sr : ℝ) / (2 * (f : ℝ))⌉₊ - 1

/-- `K_odd(f, sr) = ceil(K_all / 2)` (R54). -/
noncomputable def kOdd (f : Freq) (sr : ℕ) : ℕ :=
  (kAll f sr + 1) / 2

/-- The harmonics of Saw: `k = 1, 2, …, K_all` (R54, R57). -/
noncomputable def allHarmonics (f : Freq) (sr : ℕ) : Finset ℕ :=
  Finset.Icc 1 (kAll f sr)

/-- The harmonics of Square and Triangle: the odd `k` of `1 .. K_all` (R54, R56, R58). -/
noncomputable def oddHarmonics (f : Freq) (sr : ℕ) : Finset ℕ :=
  (Finset.Icc 1 (kAll f sr)).filter (fun k => k % 2 = 1)

/-- The coefficient `1/k` of Square and Saw, always positive (R56, R57, R62). -/
noncomputable def coefRecip (k : ℕ) : ℝ :=
  1 / k

/-- The coefficient `1/k²` of Triangle, always positive (R58, R62). -/
noncomputable def coefRecipSq (k : ℕ) : ℝ :=
  1 / (k * k)

/-- SINE (R55): the single term, never truncated. -/
noncomputable def sineIdeal (f : Freq) (sr : ℕ) (p : ℝ) : ℝ :=
  Real.sin (p * (f : ℝ) * 2 * Real.pi / sr)

/-- SQUARE (R56). -/
noncomputable def squareIdeal (f : Freq) (sr : ℕ) (p : ℝ) : ℝ :=
  ∑ k ∈ oddHarmonics f sr, coefRecip k * harm f k sr p

/-- SAW (R57). -/
noncomputable def sawIdeal (f : Freq) (sr : ℕ) (p : ℝ) : ℝ :=
  ∑ k ∈ allHarmonics f sr, coefRecip k * harm f k sr p

/-- TRIANGLE (R58). -/
noncomputable def triangleIdeal (f : Freq) (sr : ℕ) (p : ℝ) : ℝ :=
  ∑ k ∈ oddHarmonics f sr, coefRecipSq k * harm f k sr p

/-- `synth_ideal(w, f, sr, p)` (R51), defined for `f > 0` only (R61). -/
noncomputable def synthIdeal (w : Waveform) (f : Freq) (sr : ℕ) (p : ℝ) : ℝ :=
  match w with
  | .sine => sineIdeal f sr p
  | .square => squareIdeal f sr p
  | .saw => sawIdeal f sr p
  | .triangle => triangleIdeal f sr p

/-- The source's loop (R59): the test is made before the term is added, and the first `k` that fails it ends the sum.
`fuel` only bounds the number of turns, for Lean's sake; the loop ends by its own test (log 21). -/
noncomputable def additiveLoop (stride : ℕ) (coef : ℕ → ℝ) (f : Freq) (sr : ℕ) (p : ℝ) : ℕ → ℕ → ℝ → ℝ
  | 0, _, acc => acc
  | fuel + 1, k, acc =>
    if (f : ℝ) * k < (sr : ℝ) / 2 then
      additiveLoop stride coef f sr p fuel (k + stride) (acc + coef k * harm f k sr p)
    else acc

/-- `additive(step, coef, f, sr, p)` of R59, from `acc = 0` and `k = 1`, with the fuel its measure
`ceil(sr/(2f)) - k` allows. -/
noncomputable def additive (stride : ℕ) (coef : ℕ → ℝ) (f : Freq) (sr : ℕ) (p : ℝ) : ℝ :=
  additiveLoop stride coef f sr p ⌈(sr : ℝ) / (2 * (f : ℝ))⌉₊ 1 0

end Sys2Proof
end

