-- ==== Sys2Proof/Machine/Numerics.lean ====
section
/-! DEFINITION. Machine/Numerics.lean: the numeric record `NUM` (R7) over any type of data, what `NUM.SYNTH` must satisfy
(R66), the format of a block with command words (R7: `FW`, `enc`, `dec`), the ideal instantiation `REAL` (R8) and the suggested recipe `SYNTH_ref` (R66). -/

namespace Sys2Proof

/-- What a datum stands for (R7): a real number, or one of three non-finite classes. -/
inductive NumVal where
  | nan
  | posInf
  | negInf
  | real (x : ℝ)

/-- The numeric record `NUM` over the data `D` (R7). `FW`, `enc` and `dec` stand in `WordFormat`, since the ideal
instantiation has none (R8). Purity (R66 (c)) is the type of `synth`. -/
structure NumFormat (D : Type) where
  /-- `NUM.val`. -/
  val : D → NumVal
  /-- The test of R68 step 2, as a comparator of the block; `positive_iff` of `Conforms` says what it decides (log 4). -/
  positive : D → Bool
  /-- `NUM.ZERO`. -/
  zero : D
  /-- Is the datum a negative zero? A format with two zeros tells them apart by their sign (R7). -/
  negZero : D → Bool
  /-- `NUM.of_nat`, of interest on `0 .. SAMPLE_RATE`. -/
  ofNat : ℕ → D
  /-- `NUM.SYNTH (w, f, sr, p)`. -/
  synth : Waveform → D → ℕ → ℕ → D

/-- The format meets R7 and R66 at the sample rate `sr` with the tolerance `tol`. -/
structure NumFormat.Conforms {D : Type} (N : NumFormat D) (sr : ℕ)
    (tol : Waveform → ℝ → ℕ → ℕ → ℝ) : Prop where
  /-- The comparator decides "a real number and `> 0`" (R68 step 2). -/
  positive_iff : ∀ d, N.positive d = true ↔ ∃ x, N.val d = .real x ∧ 0 < x
  /-- `val(ZERO) = 0` (R7). -/
  zero_val : N.val N.zero = .real 0
  /-- A negative zero is a zero. -/
  negZero_val : ∀ d, N.negZero d = true → N.val d = .real 0
  /-- `ZERO` is not a negative zero (R7). -/
  zero_positive : N.negZero N.zero = false
  /-- "where a format has two zeros, `ZERO` is the positive one" (R7), so the other is the negative one. -/
  two_zeros : ∀ d, d ≠ N.zero → N.val d = .real 0 → (∀ e, N.val e = .real 0 → e = N.zero ∨ e = d) → N.negZero d = true
  /-- `val(of_nat(n)) = n` exactly, for `n` in `0 .. SAMPLE_RATE` (R7). -/
  ofNat_val : ∀ n, n ≤ sr → N.val (N.ofNat n) = .real n
  /-- `TOL` is never negative (R6). -/
  tol_nonneg : ∀ w x r p, 0 ≤ tol w x r p
  /-- Closeness, R66 (a). -/
  close : ∀ w d x p (h : 0 < x), N.val d = .real x → p < sr →
    ∃ v, N.val (N.synth w d sr p) = .real v ∧ |v - synthIdeal w ⟨x, h⟩ sr p| ≤ tol w x sr p
  /-- Exact silence, R66 (b) and R60: not merely a value within the tolerance of 0. -/
  silent : ∀ w d x p, w ≠ .sine → N.val d = .real x → (sr : ℝ) / 2 ≤ x → p < sr →
    N.synth w d sr p = N.zero

/-- The numeric record of a block with command words: `NUM` with `FW`, `enc` and `dec` (R7). A datum is held as its code
`NUM.enc v`, an unsigned integer below `2 ^ FW`, so `enc` is the inclusion of the codes in the patterns, and `dec` answers the
code of the datum that a pattern spells (log 2). -/
structure WordFormat extends NumFormat Datum where
  /-- `NUM.FW`, the number of bits of an encoded datum. -/
  fw : ℕ
  /-- `NUM.dec`, total. -/
  dec : ℕ → Datum

/-- The codec is one of R7, wide enough for command words. -/
structure WordFormat.Wf (N : WordFormat) : Prop where
  /-- "where command words are used, `FW >= 2`" (R6, R39). -/
  fw_ge_two : 2 ≤ N.fw
  /-- A code has `FW` bits. -/
  code_fits : ∀ b, N.dec b < 2 ^ N.fw
  /-- `dec(enc(v)) = v` for every datum `v` (R7). -/
  dec_code : ∀ b, N.dec (N.dec b) = N.dec b
  /-- An integer that is the code of no datum stands for no number. -/
  no_datum_no_number : ∀ d, N.dec d ≠ d → N.val d = .nan
  zero_datum : N.dec N.zero = N.zero
  /-- SYNTH answers data (R7). -/
  synth_datum : ∀ w d r p, N.dec (N.synth w d r p) = N.synth w d r p

/-- What `SYNTH` of the ideal instantiation would answer for a frequency that is not `> 0`: it is total (R7), but the spec
gives no value there (R61), so nothing is known of this one, and `next_sample` never asks for it (log 20). -/
noncomputable opaque undefinedSample : Waveform → ℝ → ℕ → ℕ → ℝ

/-- The ideal instantiation `NUM = REAL` (R8): data are the reals, `val` is the identity, `SYNTH = synth_ideal` on its domain.
It has no codec, so it serves commands taken as terms, not as words. -/
noncomputable def idealFormat : NumFormat ℝ where
  val := .real
  positive := fun x => decide (0 < x)
  zero := 0
  negZero := fun _ => false
  ofNat := fun n => n
  synth := fun w x sr p => if h : 0 < x then synthIdeal w ⟨x, h⟩ sr p else undefinedSample w x sr p

/-- The phase advance with its sample-rate gate (R69). -/
def advance (sr p : ℕ) : ℕ :=
  if p + 1 < sr then p + 1 else 0

/-- Steps 1 to 5 of `next_sample` (R68) on plain values, over any numeric format: none where step 2 raises FREQ_DOMAIN,
otherwise the new phase and the sample computed AT the new phase. -/
def sampleAt {D : Type} (N : NumFormat D) (w : Waveform) (f : D) (sr p : ℕ) : Option (ℕ × D) :=
  if N.positive f then
    some (advance sr p, N.synth w f sr (advance sr p))
  else none

/-- `PHASE_W`: the least `n >= 1` with `2^n >= SAMPLE_RATE` (R6). -/
def phaseWidth (sr : ℕ) : ℕ :=
  max 1 (Nat.clog 2 sr)

/-- The operations the recipe `SYNTH_ref` of R66 is written with, each rounded as the format rounds it. -/
structure FloatOps (D : Type) where
  mul : D → D → D
  div : D → D → D
  add : D → D → D
  fsin : D → D
  lt : D → D → Bool
  twoPi : D
  zero : D
  ofNat : ℕ → D

/-- `sine_of(g) = fsin(((P * g) * TWO_PI) / SR)` of `SYNTH_ref` (R66). -/
def refSine {D : Type} (O : FloatOps D) (sr p : ℕ) (g : D) : D :=
  O.fsin (O.div (O.mul (O.mul (O.ofNat p) g) O.twoPi) (O.ofNat sr))

/-- `1/of_nat(k)`, the coefficient of Square and Saw in `SYNTH_ref` (R66). -/
def refRecip {D : Type} (O : FloatOps D) (k : ℕ) : D :=
  O.div (O.ofNat 1) (O.ofNat k)

/-- `1/(of_nat(k) * of_nat(k))`, the coefficient of Triangle in `SYNTH_ref` (R66). -/
def refRecipSq {D : Type} (O : FloatOps D) (k : ℕ) : D :=
  O.div (O.ofNat 1) (O.mul (O.ofNat k) (O.ofNat k))

/-- The loop of `SYNTH_ref` (R66), `k` an exact integer; `fuel` bounds its turns (log 21). -/
def refLoop {D : Type} (O : FloatOps D) (stride : ℕ) (coef : ℕ → D) (f : D) (sr p : ℕ) : ℕ → ℕ → D → D
  | 0, _, acc => acc
  | fuel + 1, k, acc =>
    if O.lt (O.mul f (O.ofNat k)) (O.div (O.ofNat sr) (O.ofNat 2)) then
      refLoop O stride coef f sr p fuel (k + stride)
        (O.add acc (O.mul (coef k) (refSine O sr p (O.mul f (O.ofNat k)))))
    else acc

/-- `SYNTH_ref` (R66): a suggestion of the spec that binds nothing (D8). -/
def synthRef {D : Type} (O : FloatOps D) (fuel : ℕ) (w : Waveform) (f : D) (sr p : ℕ) : D :=
  match w with
  | .sine => refSine O sr p f
  | .square => refLoop O 2 (refRecip O) f sr p fuel 1 O.zero
  | .saw => refLoop O 1 (refRecip O) f sr p fuel 1 O.zero
  | .triangle => refLoop O 2 (refRecipSq O) f sr p fuel 1 O.zero

/-- Exact real operations, in which nothing is rounded. -/
noncomputable def realOps : FloatOps ℝ where
  mul := fun x y => x * y
  div := fun x y => x / y
  add := fun x y => x + y
  fsin := Real.sin
  lt := fun x y => decide (x < y)
  twoPi := 2 * Real.pi
  zero := 0
  ofNat := fun n => n

end Sys2Proof
end

