-- ==== Sys2Proof/Config.lean ====
section
/-! DEFINITION. Config.lean: the parameters the spec leaves open (R6), what makes them well-formed (R6, R7, R66, R89), and
`Config.here`, the one configuration this machine is built with: an opaque value, of which nothing is known but that it
is well-formed. So a theorem about the machine holds for every well-formed configuration (log 3). -/

namespace Sys2Proof

/-- The parameters of R6, fixed when the block is built. `FW` is `num.fw`; `CW` and `PHASE_W` follow. -/
structure Params where
  /-- `SAMPLE_RATE`. -/
  sampleRate : ℕ
  /-- `INIT_WAVEFORM`. -/
  initWaveform : Waveform
  /-- `INIT_FREQUENCY`. -/
  initFrequency : Datum
  /-- `NUM`, `FW` among its items. -/
  num : WordFormat
  /-- `TOL`. -/
  tol : Waveform → ℝ → ℕ → ℕ → ℝ

/-- A configuration is well-formed (R6): the sample rate is an integer `>= 1`, the codec is one and `FW >= 2` (R7, R39), every
datum the parameters name is a datum, and the format meets R7 and R66 at this rate. -/
structure Params.Wf (P : Params) : Prop where
  rate_pos : 1 ≤ P.sampleRate
  num_wf : P.num.Wf
  init_datum : P.num.dec P.initFrequency = P.initFrequency
  ofNat_datum : ∀ n, n ≤ P.sampleRate → P.num.dec (P.num.ofNat n) = P.num.ofNat n
  num_conforms : P.num.toNumFormat.Conforms P.sampleRate P.tol

/-- One well-formed configuration, for no other purpose than to show that there are any: rate 1, data the integers
`0 .. 3`. The machine does not use it. -/
def Params.sample : Params where
  sampleRate := 1
  initWaveform := .sine
  initFrequency := 0
  num := { val := fun d => if d < 4 then .real (d : ℝ) else .nan, positive := fun d => decide (0 < d ∧ d < 4), zero := 0,
           negZero := fun _ => false, ofNat := fun n => n, synth := fun _ _ _ _ => 0, fw := 2, dec := fun b => b % 4 }
  tol := fun _ _ _ _ => 0

theorem harm_at_zero (f : Freq) (k sr : ℕ) : harm f k sr 0 = 0 := by simp [harm]

theorem synthIdeal_at_zero (w : Waveform) (f : Freq) (sr : ℕ) : synthIdeal w f sr 0 = 0 := by
  cases w <;> simp [synthIdeal, sineIdeal, squareIdeal, sawIdeal, triangleIdeal, harm_at_zero]

theorem Params.sample_val {d : ℕ} {x : ℝ} (h : Params.sample.num.val d = .real x) : d < 4 ∧ x = d := by
  by_cases hd : d < 4
  · exact ⟨hd, by simpa [Params.sample, hd] using h.symm⟩
  · simp [Params.sample, hd] at h

theorem Params.sample_wf : Params.sample.Wf where
  rate_pos := le_refl 1
  num_wf :=
    { fw_ge_two := le_refl 2
      code_fits := fun b => Nat.mod_lt b (by decide)
      dec_code := fun b => Nat.mod_mod b 4
      no_datum_no_number := fun d h => if_neg fun hd => h (Nat.mod_eq_of_lt hd)
      zero_datum := rfl
      synth_datum := fun _ _ _ _ => rfl }
  init_datum := rfl
  ofNat_datum := fun _ hn => Nat.mod_eq_of_lt (lt_of_le_of_lt hn (by decide))
  num_conforms :=
    { positive_iff := fun d => by
        by_cases hd : d < 4 <;> simp [Params.sample, hd]
      zero_val := by simp [Params.sample]
      negZero_val := fun _ h => by simp [Params.sample] at h
      zero_positive := rfl
      two_zeros := fun d hd hv _ => absurd (by exact_mod_cast (Params.sample_val hv).2.symm) hd
      ofNat_val := fun n hn => if_pos (lt_of_le_of_lt hn (by decide))
      tol_nonneg := fun _ _ _ _ => le_refl 0
      close := fun w d x p hx _ hp => by
        have h0 : p = 0 := Nat.lt_one_iff.mp hp
        subst h0
        exact ⟨0, by simp [Params.sample], by simp [Params.sample, synthIdeal_at_zero]⟩
      silent := fun _ _ _ _ _ _ _ _ => rfl }

/-- A configuration that carries the proof of its well-formedness (R89: "the configuration carries a proof of
well-formedness, and the machine is not defined otherwise"). The field's default only shows the type inhabited. -/
structure Config where
  checked : { P : Params // P.Wf } := ⟨Params.sample, Params.sample_wf⟩
  deriving Inhabited

/-- The configuration of this block: open (D6, D7, D10, D11), so nothing in Lean can see its value. -/
opaque Config.here : Config

/-- The parameters of this block. -/
def params : Params := Config.here.checked.val

/-- All that is known of them. -/
theorem params_wf : params.Wf := Config.here.checked.property

/-- `FW`, the number of bits of an encoded datum of this block: open, an item of its `NUM` (R6, R7). -/
abbrev FW : ℕ := params.num.fw

/-- `CW`, the width of this block's command words (R6, R39). -/
abbrev CW : ℕ := commandWidth FW

end Sys2Proof
end

