-- ==== Sys2Proof/WellFormed.lean ====
section
/-! DEFINITION. WellFormed.lean: the well-formed commands of a block with `FW = fw` (R40 to R44): the operand of
`set_frequency` is a pattern of `fw` bits, any one (R43). Waveforms have legal values only (R42). The other check that can fail
is the configuration's, `Params.Wf` of Config.lean (R6). -/

namespace Sys2Proof

/-- Is the command one that a block with this `FW` has an encoding of (R41)? -/
def wellFormed (fw : ℕ) (i : Instr) : Bool :=
  match i with
  | .nextSample => true
  | .setWaveform _ => true
  | .setFrequency arg => decide (arg < 2 ^ fw)

end Sys2Proof
end

