-- ==== Sys2Proof/Decode.lean ====
section
/-! DEFINITION. Decode.lean: the decoder, total on all words and rejecting by name (R48), and after it the encoder (R49). -/

namespace Sys2Proof

/-- Why a word encodes no command (R45, R46). -/
inductive IllegalWord where
  /-- `op = 0b11` (R45). -/
  | reservedOpcode
  /-- `op = 0b00` with `arg != 0` (R44, R46). -/
  | nextSampleOperand
  /-- `op = 0b01` with `arg.rsv != 0` (R46). -/
  | waveformReservedBits
  deriving DecidableEq, Repr

/-- What the decoder answers: a command, or `Illegal` with its reason (R48). -/
inductive Decoded where
  | command (i : Instr)
  | illegal (why : IllegalWord)
  deriving DecidableEq, Repr

/-- `decode` (R48), of a word of any width `CW`. It reads no state. -/
def decode (cmd : ℕ) : Decoded :=
  if opField cmd = 0b00#2 then
    if argField cmd = 0 then .command .nextSample else .illegal .nextSampleOperand
  else if opField cmd = 0b01#2 then
    if reservedField (argField cmd) = 0 then .command (.setWaveform (waveformOfCode (waveformField (argField cmd))))
    else .illegal .waveformReservedBits
  else if opField cmd = 0b10#2 then .command (.setFrequency (argField cmd))
  else .illegal .reservedOpcode

/-- `encode` (R49): `{0, 0b00}`, `{zext_FW(w), 0b01}`, `{arg.f, 0b10}`. -/
def encode (i : Instr) : ℕ :=
  match i with
  | .nextSample => commandWord 0 0b00#2
  | .setWaveform w => commandWord (waveformCode w).toNat 0b01#2
  | .setFrequency arg => commandWord arg 0b10#2

/-- The `FW` that spec/opcode_table.json shows its words for. The block's own `FW` is open (log 1). -/
abbrev tableFW : ℕ := 32

/-- The command word whose bits are `w`, read from `nbits` bits (the bits above are 0). The block has no byte order (R35):
bit `n` of `w` is `cmd[n]`. -/
def tableWord (nbits w : Nat) : ℕ :=
  w % 2 ^ nbits

/-- The command the decoder reads from a word of the opcode table; none where it rejects the word or where a bit above
`cmd[CW-1]` of the table's words is set, which none of them has. -/
def decodeTableWord (nbits w : Nat) : Option Instr :=
  if tableWord nbits w < 2 ^ commandWidth tableFW then
    match decode (tableWord nbits w) with
    | .command i => some i
    | .illegal _ => none
  else none

end Sys2Proof
end

