-- ==== Sys2Proof/Machine/State.lean ====
section
/-! DEFINITION. Machine/State.lean: the state as plain data (R13, R28), the inputs and the observation beside it, the
stops, and the state after reset (R24). The block has no memory (R25). -/

namespace Sys2Proof.Machine

/-- What the `fault` register can hold (R18, R80). Code 3 is never held, so it has no name here (U5). -/
inductive FaultCode where
  | none
  | illegalCmd
  | freqDomain
  deriving DecidableEq, Repr

/-- The levels of the one-bit inputs at one moment at which a transfer may happen (R26; logs 7 and 8): whether `rst` is
high, whether the owner presents its next command word, whether the consumer can take a sample. -/
structure Moment where
  rst : Bool
  cmdValid : Bool
  smpReady : Bool
  deriving DecidableEq, Repr

/-- Why `exec` can stop. -/
inductive Fault where
  /-- Raised by every meaning asked to execute in a state that accepts no command: a recorded fault, or a sample waiting.
  The spec gives such a state no step ("A command executes only if it was accepted", R67; R74; U6: stuck). SAFE: it stops
  where nothing executes. `step` never meets it, since it hands over accepted commands only (log 11). -/
  | notAccepted
  deriving DecidableEq, Repr

/-- Why an instruction can be refused. -/
inductive Refusal where
  /-- Raised by an arm of `exec` that has no meaning yet. SAFE. Every arm has its meaning, so nothing raises it. -/
  | notModelled (mnemonic : String)
  deriving DecidableEq, Repr

/-- The whole state. The first five fields are `S` of R13, `smp` is the sample port (R28); the last three are the model's
own: the owner's and the environment's inputs still to come and the observation (log 14). -/
structure State where
  /-- `waveform`, R14. -/
  waveform : Waveform
  /-- `frequency_hz`, R15: a datum, held as its FW-bit code (logs 1 and 2). -/
  frequencyHz : Datum
  /-- `sample_rate`, R16: the constant `SAMPLE_RATE` (log 6). -/
  sampleRate : Nat
  /-- `phase_index`, R17: a count in `[0, SAMPLE_RATE - 1]` (log 5). -/
  phaseIndex : Nat
  /-- `fault`, R18. -/
  fault : FaultCode
  /-- The sample port: the sample waiting, if one is (`smp_valid = 1`); `smp` is unspecified otherwise (R28, log 13). -/
  smp : Option Datum
  /-- The command words the owner still has to send, head first (R27), each below `2 ^ CW` (log 1). -/
  cmds : List ℕ
  /-- The moments still to come, the next one first. -/
  env : List Moment
  /-- The samples the consumer has taken, oldest first (R75). -/
  taken : List Datum
  deriving DecidableEq, Repr

/-- The state after reset (R24), with nothing sent, nothing to come and nothing observed (log 14). -/
def State.reset : State where
  waveform := params.initWaveform
  frequencyHz := params.initFrequency
  sampleRate := params.sampleRate
  phaseIndex := 0
  fault := .none
  smp := none
  cmds := []
  env := []
  taken := []

end Sys2Proof.Machine
end

