-- ==== Sys2Proof/Machine/Flags.lean ====
section
/-! DEFINITION. Machine/Flags.lean: the one flag, the fault code (R21, R80), and the status outputs computed from the
state (R26, R27, R28). -/

namespace Sys2Proof.Machine

/-- The 2-bit code of a fault, the value of the `fault` output (R26, R80). -/
def faultBits (c : FaultCode) : BitVec 2 :=
  match c with
  | .none => 0#2
  | .illegalCmd => 1#2
  | .freqDomain => 2#2

/-- `smp_valid` while `rst = 0`: a sample waits on the port (R28). -/
def smpValid (s : State) : Bool :=
  s.smp.isSome

/-- `cmd_ready` while `rst = 0`: no fault is recorded and no sample waits (R27). A command in progress takes no moment of
this model (log 7). -/
def cmdReady (s : State) : Bool :=
  decide (s.fault = .none) && !smpValid s

/-- The outputs of the block (R26). `smp` is none where it is unspecified (R28). -/
structure Outputs where
  cmdReady : Bool
  smpValid : Bool
  smp : Option Datum
  fault : BitVec 2
  deriving DecidableEq, Repr

/-- The outputs at a moment with the given level of `rst`: while `rst = 1`, `cmd_ready = 0` and `smp_valid = 0` (R93). -/
def outputs (rst : Bool) (s : State) : Outputs where
  cmdReady := !rst && cmdReady s
  smpValid := !rst && smpValid s
  smp := if rst then none else s.smp
  fault := faultBits s.fault

end Sys2Proof.Machine
end

