-- ==== Sys2Proof/Machine/Ops.lean ====
section
/-! DEFINITION. Machine/Ops.lean: the shared operations: fault entry (R83) and the way out of it, reset (R85, R93); the
sample port (R28); acceptance (R67). -/

namespace Sys2Proof.Machine

/-- `raise <Fault>(info)` (R83): the code is written and nothing else; nothing is saved, no vector is fetched. -/
def raiseFault (c : FaultCode) (s : State) : State :=
  { s with fault := c }

/-- The effect of a moment with `rst = 1` (R93, R94): the reset state of R24, the sample port emptied. `sample_rate` is a
constant that reset does not change (R16). Words not accepted and samples already taken stay (R94). -/
def resetBlock (s : State) : State :=
  { s with
    waveform := params.initWaveform
    frequencyHz := params.initFrequency
    phaseIndex := 0
    fault := .none
    smp := none }

/-- `emit(v)` (R10, R28): the datum waits on the sample port. -/
def emit (v : Datum) (s : State) : State :=
  { s with smp := some v }

/-- The consumer takes the waiting sample (R28): it is observed once and the port is empty. -/
def takeSample (s : State) : State :=
  match s.smp with
  | some v => { s with smp := none, taken := s.taken ++ [v] }
  | none => s

/-- A command executes only where one is accepted (R67); elsewhere there is no step (R74). -/
def whenAccepted (s : State) (t : State) : Host.Outcome State Fault Refusal :=
  if cmdReady s then .next t else .fault .notAccepted

end Sys2Proof.Machine
end

