-- ==== Sys2Proof/Machine/Oscillator.lean ====
section
/-! DEFINITION. Machine/Oscillator.lean: the meanings of the three commands (41_oscillator_commands.md). -/

namespace Sys2Proof.Machine

/-- `next_sample` over a numeric format (R68): FREQ_DOMAIN with no other effect where the held frequency is not a real
number `> 0`; otherwise the phase advances and the sample for the NEW phase is emitted. -/
def nextSampleOn (N : NumFormat Datum) (s : State) : State :=
  match sampleAt N s.waveform s.frequencyHz s.sampleRate s.phaseIndex with
  | some (p, v) => emit v { s with phaseIndex := p }
  | none => raiseFault .freqDomain s

/-- NEXT_SAMPLE (R68). -/
def execNextSample (s : State) : Host.Outcome State Fault Refusal :=
  whenAccepted s (nextSampleOn params.num.toNumFormat s)

/-- SET_WAVEFORM (R70): `S.waveform <- w`. -/
def execSetWaveform (w : Waveform) (s : State) : Host.Outcome State Fault Refusal :=
  whenAccepted s { s with waveform := w }

/-- SET_FREQUENCY (R71, R43): `S.frequency_hz <- NUM.dec(arg.f)`, whatever the datum. -/
def execSetFrequency (arg : ℕ) (s : State) : Host.Outcome State Fault Refusal :=
  whenAccepted s { s with frequencyHz := params.num.dec arg }

end Sys2Proof.Machine
end

