-- ==== Sys2Proof/Machine/Dispatch.lean ====
section
/-! DEFINITION. Machine/Dispatch.lean: one arm per command (R74). -/

namespace Sys2Proof.Machine

def exec (i : Instr) (s : State) : Host.Outcome State Fault Refusal :=
  match i with
  | .nextSample => Sys2Proof.Machine.execNextSample s
  | .setWaveform w => Sys2Proof.Machine.execSetWaveform w s
  | .setFrequency arg => Sys2Proof.Machine.execSetFrequency arg s

end Sys2Proof.Machine
end

