-- ==== Sys2Proof/Machine/Transfer.lean ====
section
/-! DEFINITION. Machine/Transfer.lean: what happens at one moment at the ports (R27, R28, R33, R84, R93), which is how
a command word comes to be accepted and executed. -/

namespace Sys2Proof.Machine

/-- Executing an accepted word begins with `decode` (R67): a word that spells no command raises ILLEGAL_CMD (R81). -/
def acceptWord (w : ℕ) (s : State) : Host.Outcome State Fault Refusal :=
  match decode w with
  | .command i => exec i s
  | .illegal _ => whenAccepted s (raiseFault .illegalCmd s)

/-- One moment. `rst` overrides everything (R86). A waiting sample holds the block until it is taken (R28, R33). Otherwise
a presented word is accepted if the block is ready (R27); a halted block accepts none and nothing changes (R84); with no
word presented the block idles (R73). -/
def playMoment (m : Moment) (s : State) : Host.Outcome State Fault Refusal :=
  if m.rst then .next (resetBlock s)
  else if smpValid s then .next (if m.smpReady then takeSample s else s)
  else if m.cmdValid && cmdReady s then
    match s.cmds with
    | [] => .next s
    | w :: ws => acceptWord w { s with cmds := ws }
  else .next s

/-- The next moment of the environment; where none is left nothing happens any more (log 9). -/
def nextMoment (s : State) : Host.Outcome State Fault Refusal :=
  match s.env with
  | [] => .next s
  | m :: ms => playMoment m { s with env := ms }

/-- The owner sends this word next, and presents it at the next moment. -/
def presentWord (w : ℕ) (s : State) : State :=
  { s with
    cmds := w :: s.cmds
    env := { rst := false, cmdValid := true, smpReady := false } :: s.env }

end Sys2Proof.Machine
end

