-- ==== Sys2Proof/Machine/Step.lean ====
section
/-! DEFINITION. Machine/Step.lean: the step, and how the host places a command word. -/

namespace Sys2Proof.Machine

/-- One step: the next moment at the ports. -/
def step (s : State) : Host.Outcome State Fault Refusal :=
  nextMoment s

/-- The state in which the owner presents the word `w` of the opcode table at the very next moment (log 15). -/
def State.withFetchWord (s : State) (nbits w : Nat) : State :=
  presentWord (tableWord nbits w) s

end Sys2Proof.Machine
end

