-- ==== Sys2Proof/Safety.lean ====
section
/-! DEFINITION. Safety.lean: runs, what they show and when they end well (R75), the invariant of the machine, and the few
schedules that statements speak of. -/

namespace Sys2Proof.Machine

/-- `n` steps, stopping where a step stops. -/
def runFor : Nat → State → Host.Outcome State Fault Refusal
  | 0, s => .next s
  | n + 1, s =>
    match step s with
    | .next t => runFor n t
    | .fault r => .fault r
    | .refused r => .refused r

/-- What a run shows (R75): the samples taken, in order, and the final state of R13. -/
structure Observation where
  samples : List Datum
  waveform : Waveform
  frequencyHz : Datum
  sampleRate : Nat
  phaseIndex : Nat
  fault : FaultCode
  deriving DecidableEq, Repr

/-- The observation of a run that ends in `s` (R75). -/
def observe (s : State) : Observation where
  samples := s.taken
  waveform := s.waveform
  frequencyHz := s.frequencyHz
  sampleRate := s.sampleRate
  phaseIndex := s.phaseIndex
  fault := s.fault

/-- A run ends well when no fault is recorded (R75). -/
def EndsWell (s : State) : Prop :=
  s.fault = .none

/-- A safe run: `n` steps are taken and the run ends well (R75). -/
def SafeRun (n : Nat) (s : State) : Prop :=
  ∃ t, runFor n s = .next t ∧ EndsWell t

/-- The frequency a datum stands for is in the domain of R61: a real number, and `> 0` (R68 step 2). -/
def InDomain (d : Datum) : Prop :=
  ∃ x, params.num.val d = .real x ∧ 0 < x

/-- The samples emitted so far: those taken, and the one that waits (R28, R72). -/
def emitted (s : State) : Nat :=
  s.taken.length + s.smp.toList.length

/-- No moment of the list is a reset. -/
def NoReset (ms : List Moment) : Prop :=
  ∀ m ∈ ms, m.rst = false

/-- A moment at which the owner presents its next word and the consumer takes nothing. -/
def Moment.present : Moment :=
  { rst := false, cmdValid := true, smpReady := false }

/-- A moment at which the consumer takes a sample and the owner presents nothing. -/
def Moment.take : Moment :=
  { rst := false, cmdValid := false, smpReady := true }

/-- `n` times over: a word is presented, then a sample is taken. -/
def sampling : Nat → List Moment
  | 0 => []
  | n + 1 => Moment.present :: Moment.take :: sampling n

/-- The states agree in all but the moments still to come. -/
def SameButEnv (s t : State) : Prop :=
  { s with env := [] } = { t with env := [] }

/-- The invariant every step keeps. -/
structure Invariant (s : State) : Prop where
  /-- `sample_rate` is the constant of the configuration (R16). -/
  rate : s.sampleRate = params.sampleRate
  /-- `0 ≤ phase_index < sample_rate` (R17). -/
  phase_lt : s.phaseIndex < s.sampleRate
  /-- The count fits its `PHASE_W` bits (R13, R76). -/
  phase_fits : s.phaseIndex < 2 ^ phaseWidth s.sampleRate
  /-- `frequency_hz` holds a datum of `NUM` (R15), whose code has `FW` bits (R13). -/
  freq_datum : params.num.dec s.frequencyHz = s.frequencyHz
  /-- A halted block presents no sample (R84). -/
  halted_silent : s.fault ≠ .none → s.smp = none
  /-- What waits on the sample port is a datum (R28). -/
  smp_datum : ∀ v, s.smp = some v → params.num.dec v = v
  /-- The owner's words fit the command port, `CW` bits (R26, R39). -/
  words_fit : ∀ w, w ∈ s.cmds → w < 2 ^ CW
  /-- What was taken are data. -/
  taken_data : ∀ v, v ∈ s.taken → params.num.dec v = v

end Sys2Proof.Machine
end

