-- ==== Sys2Proof/Certificates/Slice0/Obligations.lean ====
section
/-! DEFINITION. Certificates/Slice0/Obligations.lean: what is to be proved of the machine. A statement that names `params`
speaks of the block's opaque configuration, so it holds for every well-formed one. -/

open Sys2Proof Sys2Proof.Machine

/-! ### Encoding (30_encoding.md) -/

/-- R49: the words of the valid commands, and decoding an encoded command gives it back, with every operand, for every
`FW >= 2` (R39). -/
def Obligations.DecodeGivesBackEncodedCommand : Prop :=
  (∀ (fw : ℕ) (i : Instr), 2 ≤ fw → wellFormed fw i = true →
    decode (encode i) = .command i ∧ encode i < 2 ^ commandWidth fw) ∧
  encode .nextSample = 0 ∧
  encode (.setWaveform .sine) = 1 ∧ encode (.setWaveform .square) = 5 ∧
  encode (.setWaveform .saw) = 9 ∧ encode (.setWaveform .triangle) = 13 ∧
  ∀ arg : ℕ, encode (.setFrequency arg) = arg * 4 + 2

/-- R47, R48: each word has at most one meaning, and a word of `CW` bits that decodes to a command is that command's one
encoding, for every `FW`. That no two words mean one `set_frequency` is the model's choice (log 2, DESIGN CHOICE): its
command carries `arg.f` as it stands, where R48 writes `SetFrequency(NUM.dec(arg))` and R7 does not make `dec` injective. -/
def Obligations.DecodedWordIsTheEncoding : Prop :=
  ∀ (fw : ℕ) (w : ℕ) (i : Instr), w < 2 ^ commandWidth fw → decode w = .command i →
    wellFormed fw i = true ∧ encode i = w

/-- R81: exactly these words are illegal, said by the number the word is (`op` is `w mod 4`, `arg` is `w / 4`). -/
def Obligations.IllegalWordsAreThese : Prop :=
  ∀ w : ℕ, (∃ why, decode w = .illegal why) ↔
    (w % 4 = 3 ∨ (w % 4 = 0 ∧ w / 4 ≠ 0) ∨ (w % 4 = 1 ∧ w / 16 ≠ 0))

/-- R47: the count of the valid words among the `2 ^ CW` words, for every `FW >= 2` (R39), and with `FW = 32` as R47 gives it. -/
def Obligations.CountOfValidWords : Prop :=
  (∀ fw : ℕ, 2 ≤ fw →
    Set.ncard { w : ℕ | w < 2 ^ commandWidth fw ∧ decode w = .command .nextSample } = 1 ∧
    Set.ncard { w : ℕ | w < 2 ^ commandWidth fw ∧ ∃ v, decode w = .command (.setWaveform v) } = 4 ∧
    Set.ncard { w : ℕ | w < 2 ^ commandWidth fw ∧ ∃ arg, decode w = .command (.setFrequency arg) } = 2 ^ fw) ∧
  Set.ncard { w : ℕ | w < 2 ^ 34 ∧ decode w = .command .nextSample } = 1 ∧
  Set.ncard { w : ℕ | w < 2 ^ 34 ∧ ∃ v, decode w = .command (.setWaveform v) } = 4 ∧
  Set.ncard { w : ℕ | w < 2 ^ 34 ∧ ∃ arg, decode w = .command (.setFrequency arg) } = 2 ^ 32 ∧
  ∀ w : ℕ, decode w = .command .nextSample ∨ (∃ v, decode w = .command (.setWaveform v)) ∨
    (∃ arg, decode w = .command (.setFrequency arg)) ∨ ∃ why, decode w = .illegal why

/-- Words of 95_test_vectors.md 2.1 (`FW = 32`), written out, decode to what they stand for. A sanity statement. -/
def Obligations.WrittenWordsDecode : Prop :=
  decode 0x000000000 = .command .nextSample ∧
  decode 0x00000000D = .command (.setWaveform .triangle) ∧
  decode 0x10F700002 = .command (.setFrequency 0x43DC0000) ∧
  decode 0x3FFFFFFFE = .command (.setFrequency 0xFFFFFFFF) ∧
  decode 0x3FFFFFFFF = .illegal .reservedOpcode ∧
  decode 0x000000004 = .illegal .nextSampleOperand ∧
  decode 0x00000001D = .illegal .waveformReservedBits

/-! ### The three commands (41_oscillator_commands.md) -/

/-- R68, R69: `next_sample` in both cases of step 2: the phase advances by 1 with the wrap and ONE sample, for the new phase,
waits on the port; or FREQ_DOMAIN and nothing else. Everything not named is unchanged. -/
def Obligations.NextSampleAdvancesThenEmits : Prop :=
  ∀ s : State, cmdReady s = true →
    (∀ x, params.num.val s.frequencyHz = .real x → 0 < x →
      exec .nextSample s = .next
        { s with
          phaseIndex := if s.phaseIndex + 1 < s.sampleRate then s.phaseIndex + 1 else 0
          smp := some (params.num.synth s.waveform s.frequencyHz s.sampleRate
            (if s.phaseIndex + 1 < s.sampleRate then s.phaseIndex + 1 else 0)) }) ∧
    ((¬ ∃ x, params.num.val s.frequencyHz = .real x ∧ 0 < x) →
      exec .nextSample s = .next { s with fault := .freqDomain })

/-- R70: `set_waveform` completes in every state that accepts a command, and writes `waveform` only. -/
def Obligations.SetWaveformWritesWaveformOnly : Prop :=
  ∀ (w : Waveform) (s : State), cmdReady s = true →
    exec (.setWaveform w) s = .next { s with waveform := w }

/-- R71, R43: `set_frequency` completes for every operand in every state that accepts a command, and writes `frequency_hz`
only. -/
def Obligations.SetFrequencyWritesFrequencyOnly : Prop :=
  ∀ (arg : ℕ) (s : State), cmdReady s = true →
    exec (.setFrequency arg) s = .next { s with frequencyHz := params.num.dec arg }

/-- R15: any datum of `NUM` can be put in `frequency_hz`, by a command that has an encoding. -/
def Obligations.EveryDatumCanBeHeld : Prop :=
  ∀ (d : Datum) (s : State), params.num.dec d = d → cmdReady s = true →
    ∃ arg t, wellFormed FW (.setFrequency arg) = true ∧ exec (.setFrequency arg) s = .next t ∧
      t.frequencyHz = d ∧ t.fault = .none

/-- R82: the domain is checked at use, for every waveform, and neither by `set_frequency` nor by reset. -/
def Obligations.BadFrequencyFaultsAtUse : Prop :=
  (∀ (s : State), (resetBlock s).fault = .none) ∧
  ∀ (s : State) (arg : ℕ) (w : Waveform), cmdReady s = true →
    (params.num.val (params.num.dec arg) = .nan ∨ params.num.val (params.num.dec arg) = .posInf ∨
      params.num.val (params.num.dec arg) = .negInf ∨ ∃ x, params.num.val (params.num.dec arg) = .real x ∧ x ≤ 0) →
    ∃ t u, exec (.setFrequency arg) s = .next t ∧ t.fault = .none ∧ exec (.setWaveform w) t = .next u ∧ u.fault = .none ∧
      exec .nextSample u = .next { u with fault := .freqDomain }

/-- The frame of the commands, R14, R15, R17, R18, R78: which command can change which field, for every command at once. -/
def Obligations.EachFieldHasItsWriters : Prop :=
  ∀ (i : Instr) (s t : State), exec i s = .next t →
    t.sampleRate = s.sampleRate ∧ t.taken = s.taken ∧ t.cmds = s.cmds ∧ t.env = s.env ∧
    ((¬ ∃ w, i = .setWaveform w) → t.waveform = s.waveform) ∧
    ((¬ ∃ arg, i = .setFrequency arg) → t.frequencyHz = s.frequencyHz) ∧
    (i ≠ .nextSample → t.phaseIndex = s.phaseIndex ∧ t.smp = s.smp ∧ t.fault = s.fault)

/-- R67, R74: where no command is accepted none executes. That the model answers with the fault `notAccepted` there is its
own choice (log 11). -/
def Obligations.NothingExecutesUnlessAccepted : Prop :=
  ∀ (i : Instr) (s : State), (s.fault ≠ .none ∨ s.smp ≠ none) → exec i s = .fault .notAccepted

/-- R97 (4): no order is required between `set_waveform` and `set_frequency`. -/
def Obligations.SettersCommute : Prop :=
  ∀ (w : Waveform) (arg : ℕ) (s : State), cmdReady s = true →
    ∃ s₁ s₂ t, exec (.setWaveform w) s = .next s₁ ∧ exec (.setFrequency arg) s₁ = .next t ∧
      exec (.setFrequency arg) s = .next s₂ ∧ exec (.setWaveform w) s₂ = .next t

/-- R71: a frequency replaced before the next `next_sample` leaves no trace, whatever datum it was. -/
def Obligations.ReplacedFrequencyLeavesNoTrace : Prop :=
  ∀ (a b : ℕ) (s : State), cmdReady s = true →
    ∃ s₁, exec (.setFrequency a) s = .next s₁ ∧ exec (.setFrequency b) s₁ = exec (.setFrequency b) s

/-- R31: the first `next_sample` after a `set_*` uses the new value; the phase is not touched by it (R99, R100). -/
def Obligations.NextSampleUsesTheLatestSettings : Prop :=
  ∀ (w : Waveform) (arg : ℕ) (s : State), cmdReady s = true → InDomain (params.num.dec arg) →
    ∃ s₁ s₂ t, exec (.setWaveform w) s = .next s₁ ∧ exec (.setFrequency arg) s₁ = .next s₂ ∧
      exec .nextSample s₂ = .next t ∧
      t.phaseIndex = advance s.sampleRate s.phaseIndex ∧
      t.smp = some (params.num.synth w (params.num.dec arg) s.sampleRate (advance s.sampleRate s.phaseIndex))

/-- R69: the two forms of the advance are equal on a legal phase, and it keeps the phase legal. -/
def Obligations.AdvanceWrapsAtTheSampleRate : Prop :=
  ∀ sr p : ℕ, p < sr →
    advance sr p = (if p + 1 < sr then p + 1 else 0) ∧ advance sr p = (p + 1) % sr ∧ advance sr p < sr

/-- R6: `PHASE_W` is the least `n >= 1` with `2^n >= SAMPLE_RATE`. -/
def Obligations.PhaseWidthIsLeast : Prop :=
  ∀ sr : ℕ, 1 ≤ phaseWidth sr ∧ sr ≤ 2 ^ phaseWidth sr ∧ ∀ n, 1 ≤ n → sr ≤ 2 ^ n → phaseWidth sr ≤ n

/-! ### The ports, the step, faults and reset (20, 60, 70) -/

/-- R27: `cmd_ready`, and `smp_valid` and `fault` with it (R26, R28, R80, R93); a halted block of the invariant presents no
sample (R84). Of R27's conditions "no command is in progress" has no counterpart, the model's choice (log 7, DESIGN CHOICE:
a command takes no moment); that `smp` is none where it is not valid is its choice too (log 13, DESIGN CHOICE). -/
def Obligations.OutputsFollowTheState : Prop :=
  ∀ (rst : Bool) (s : State),
    ((outputs rst s).cmdReady = true ↔ rst = false ∧ s.fault = .none ∧ s.smp = none) ∧
    ((outputs rst s).smpValid = true ↔ rst = false ∧ s.smp ≠ none) ∧
    (rst = false → (outputs rst s).smp = s.smp) ∧
    (Invariant s → s.fault ≠ .none → (outputs rst s).smpValid = false) ∧
    ((outputs rst s).fault = 0 ↔ s.fault = .none) ∧ ((outputs rst s).fault = 1 ↔ s.fault = .illegalCmd) ∧
    ((outputs rst s).fault = 2 ↔ s.fault = .freqDomain) ∧ (outputs rst s).fault ≠ 3

/-- R27, R67: when the owner presents a word that decodes to a command and the block is ready, the step takes the word off
the owner's list and executes that command. The second clause rests on no rule: how a word is placed for the next step, and
that the words placed are those of the opcode table (`FW = 32`), is the model's choice (log 15, DESIGN CHOICE). -/
def Obligations.StepExecutesTheDecodedCommand : Prop :=
  (∀ (s : State) (m : Moment) (ms : List Moment) (w : ℕ) (ws : List ℕ) (i : Instr),
    s.env = m :: ms → m.rst = false → m.cmdValid = true → cmdReady s = true → s.cmds = w :: ws →
    decode w = .command i → step s = exec i { s with cmds := ws, env := ms }) ∧
  (∀ (s : State) (nbits n : ℕ) (i : Instr), cmdReady s = true → decodeTableWord nbits n = some i →
    step (s.withFetchWord nbits n) = exec i s)

/-- R74: the step function, case by case, for a word accepted in a state whose `fault` is NONE (the second clause). The first
clause is the model's reading (log 10, DEDUCED): R74 gives a state with a fault no step but reset, and the model lets any
other moment pass with no change. -/
def Obligations.StepFunctionOnAnAcceptedWord : Prop :=
  (∀ (s : State) (m : Moment) (ms : List Moment), s.env = m :: ms → m.rst = false → s.fault ≠ .none → s.smp = none →
    step s = .next { s with env := ms }) ∧
  ∀ (s : State) (m : Moment) (ms : List Moment) (w : ℕ) (ws : List ℕ),
    s.env = m :: ms → m.rst = false → m.cmdValid = true → s.fault = .none → s.smp = none → s.cmds = w :: ws →
    ((∃ why, decode w = .illegal why) → step s = .next { s with cmds := ws, env := ms, fault := .illegalCmd }) ∧
    (∀ v, decode w = .command (.setWaveform v) → step s = .next { s with cmds := ws, env := ms, waveform := v }) ∧
    (∀ arg, decode w = .command (.setFrequency arg) →
      step s = .next { s with cmds := ws, env := ms, frequencyHz := params.num.dec arg }) ∧
    (decode w = .command .nextSample → InDomain s.frequencyHz →
      step s = .next
        { s with
          cmds := ws
          env := ms
          phaseIndex := advance s.sampleRate s.phaseIndex
          smp := some (params.num.synth s.waveform s.frequencyHz s.sampleRate (advance s.sampleRate s.phaseIndex)) }) ∧
    (decode w = .command .nextSample → ¬ InDomain s.frequencyHz →
      step s = .next { s with cmds := ws, env := ms, fault := .freqDomain })

/-- R81, R83: an illegal word raises ILLEGAL_CMD and has no other effect, whichever of the three reasons holds. -/
def Obligations.IllegalWordRaisesAndNothingElse : Prop :=
  ∀ (s : State) (m : Moment) (ms : List Moment) (w : ℕ) (ws : List ℕ),
    s.env = m :: ms → m.rst = false → m.cmdValid = true → cmdReady s = true → s.cmds = w :: ws →
    (w % 4 = 3 ∨ (w % 4 = 0 ∧ w / 4 ≠ 0) ∨ (w % 4 = 1 ∧ w / 16 ≠ 0)) →
    step s = .next { s with cmds := ws, env := ms, fault := .illegalCmd }

/-- From every state the step answers a next state: the machine itself never stops. R74 says so for `fault = NONE` and an
accepted word; that a halted or stalled state answers with the moment passed is the model's reading (log 10, DEDUCED), that
a state with no moment left answers itself its choice (log 9, DESIGN CHOICE). -/
def Obligations.StepAlwaysAnswersNext : Prop :=
  ∀ s : State, ∃ t, step s = .next t

/-- R27: words leave the owner's list from the head, one at a time, and only by being accepted. -/
def Obligations.WordsLeaveOnlyWhenAccepted : Prop :=
  ∀ s t : State, step s = .next t →
    t.cmds = s.cmds ∨
    ∃ w m ms, s.cmds = w :: t.cmds ∧ s.env = m :: ms ∧ m.rst = false ∧ m.cmdValid = true ∧ cmdReady s = true

/-- R84: while a fault is recorded no word is accepted, no sample is presented and nothing changes, for as many moments as
pass without a reset; and a reset lifts the halt. -/
def Obligations.HaltedUntilReset : Prop :=
  (∀ (s : State) (m : Moment) (ms : List Moment), s.env = m :: ms → m.rst = true →
    ∃ t, step s = .next t ∧ t.fault = .none ∧ (outputs false t).cmdReady = true) ∧
  ∀ (n : ℕ) (s : State), Invariant s → s.fault ≠ .none → NoReset (s.env.take n) →
    runFor n s = .next { s with env := s.env.drop n } ∧
    ∀ rst, (outputs rst s).cmdReady = false ∧ (outputs rst s).smpValid = false

/-- R28, R33: a waiting sample is held unchanged, no word is accepted and nothing changes, until it is taken or reset. -/
def Obligations.SampleIsHeldUntilTaken : Prop :=
  ∀ (n : ℕ) (s : State) (v : Datum), s.smp = some v →
    (∀ m ∈ s.env.take n, m.rst = false ∧ m.smpReady = false) →
    runFor n s = .next { s with env := s.env.drop n }

/-- R28: at a moment with `smp_ready = 1` the waiting sample is taken and `smp_valid` returns to 0; nothing else happens. -/
def Obligations.SampleIsTakenWhenReady : Prop :=
  ∀ (s : State) (m : Moment) (ms : List Moment) (v : Datum),
    s.env = m :: ms → m.rst = false → m.smpReady = true → s.smp = some v →
    step s = .next { s with env := ms, smp := none, taken := s.taken ++ [v] }

/-- R32, R94: a step adds at most the waiting sample to what was taken; a waiting sample stays, is taken, or is lost to a
reset, and is never replaced. -/
def Obligations.SamplesAreNeitherDroppedNorDuplicated : Prop :=
  ∀ s t : State, step s = .next t →
    (s.smp = none → t.taken = s.taken) ∧
    (∀ v, s.smp = some v →
      (t.smp = some v ∧ t.taken = s.taken) ∨ (t.smp = none ∧ t.taken = s.taken ++ [v]) ∨
      (t.smp = none ∧ t.taken = s.taken ∧ ∃ m ms, s.env = m :: ms ∧ m.rst = true))

/-- R73: with no word presented, or none left to present, an idle block keeps its state. -/
def Obligations.IdleBlockKeepsItsState : Prop :=
  ∀ (s : State) (m : Moment) (ms : List Moment), s.env = m :: ms → m.rst = false → s.smp = none →
    (m.cmdValid = false ∨ s.cmds = []) → step s = .next { s with env := ms }

/-- R93, R94: a moment with `rst = 1` makes the state the reset state, whatever the state and the other inputs; a waiting
sample is lost; what was taken and what was not accepted stay. -/
def Obligations.ResetRestoresTheResetState : Prop :=
  ∀ (s : State) (m : Moment) (ms : List Moment), s.env = m :: ms → m.rst = true →
    s.sampleRate = params.sampleRate →
    step s = .next { State.reset with cmds := s.cmds, env := ms, taken := s.taken } ∧
    (outputs true s).cmdReady = false ∧ (outputs true s).smpValid = false

/-- R96: nothing survives a reset: whatever two blocks held and showed before it, with the same words and moments to come
they give the same samples after it, datum for datum, and hold the same state. -/
def Obligations.RestartRepeatsTheSamples : Prop :=
  ∀ (n : ℕ) (s t : State) (m : Moment) (ms : List Moment), s.env = m :: ms → t.env = m :: ms → m.rst = true →
    s.cmds = t.cmds → s.sampleRate = t.sampleRate →
    ∃ s' t' vs, runFor (n + 1) s = .next s' ∧ runFor (n + 1) t = .next t' ∧
      s'.taken = s.taken ++ vs ∧ t'.taken = t.taken ++ vs ∧ { s' with taken := [] } = { t' with taken := [] }

/-- R24: the state after reset; the inputs and the observation start empty by the model's choice (log 14). -/
def Obligations.StateAfterReset : Prop :=
  State.reset.waveform = params.initWaveform ∧ State.reset.frequencyHz = params.initFrequency ∧
  State.reset.sampleRate = params.sampleRate ∧ State.reset.phaseIndex = 0 ∧ State.reset.fault = .none ∧
  State.reset.smp = none ∧ (outputs false State.reset).cmdReady = true

/-! ### Whole runs -/

/-- The invariant holds after reset. -/
def Obligations.InvariantHoldsAtReset : Prop :=
  Invariant State.reset

/-- R17, R15, R84: every step keeps the invariant: the phase stays below the sample rate and in its width, the registers and
the port hold data, the owner's words fit the port (R39), the rate never changes, a halted block presents nothing. -/
def Obligations.InvariantIsKeptByEveryStep : Prop :=
  ∀ s t : State, Invariant s → step s = .next t → Invariant t

/-- R72: without a reset the phase counts the samples emitted, modulo the sample rate, whatever `set_*` lie between them. -/
def Obligations.PhaseCountsEmittedSamples : Prop :=
  ∀ (n : ℕ) (s t : State), Invariant s → NoReset (s.env.take n) → runFor n s = .next t →
    emitted s ≤ emitted t ∧
    t.phaseIndex = (s.phaseIndex + (emitted t - emitted s)) % params.sampleRate

/-- R72: the samples of `n` `next_sample` words in a row, each taken before the next: the `i`-th after the state is computed
at phase `(phase_index + i) mod SAMPLE_RATE` (from reset: `i mod SAMPLE_RATE`). -/
def Obligations.StreamOfSamples : Prop :=
  ∀ (n : ℕ) (s : State) (ws : List ℕ) (ms : List Moment),
    Invariant s → cmdReady s = true → InDomain s.frequencyHz →
    s.cmds = List.replicate n 0 ++ ws → s.env = sampling n ++ ms →
    runFor (2 * n) s = .next
      { s with
        phaseIndex := (s.phaseIndex + n) % params.sampleRate
        cmds := ws
        env := ms
        taken := s.taken ++ (List.range n).map (fun i =>
          params.num.synth s.waveform s.frequencyHz params.sampleRate ((s.phaseIndex + (i + 1)) % params.sampleRate)) }

/-- R30: what is taken depends on the words alone, not on when they are presented and when samples are taken: of two runs
without reset that differ only in that, one's samples begin the other's; and when both have finished the same words the
two states are the same. -/
def Obligations.SamplesDoNotDependOnTheSchedule : Prop :=
  ∀ (m n : ℕ) (s t s' t' : State), SameButEnv s t → NoReset s.env → NoReset t.env →
    runFor m s = .next s' → runFor n t = .next t' →
    (s'.taken <+: t'.taken ∨ t'.taken <+: s'.taken) ∧
    (s'.cmds = [] → s'.smp = none → t'.cmds = [] → t'.smp = none → SameButEnv s' t')

/-- R106: the only sequences with a bad end are those that run a `next_sample` on a frequency outside the domain or send an
illegal word: a run that starts well, whose words all spell commands and whose frequencies (the held one, those of its
`set_frequency` words, and INIT_FREQUENCY if it is reset) are in the domain, is safe for any number of steps. -/
def Obligations.OnlyTwoWaysToEndBadly : Prop :=
  ∀ (n : ℕ) (s : State), s.fault = .none → InDomain s.frequencyHz →
    (NoReset s.env ∨ InDomain params.initFrequency) →
    (∀ w ∈ s.cmds, (∃ i, decode w = .command i) ∧
      ∀ arg, decode w = .command (.setFrequency arg) → InDomain (params.num.dec arg)) →
    SafeRun n s

/-- R97, R98: from reset, a waveform, a frequency in the domain and one `next_sample`, each sent as its word: the sample taken
is the one for phase 1 (phase 0 when the rate is 1), and the run ends well. -/
def Obligations.FirstSampleAfterReset : Prop :=
  ∀ (w : Waveform) (arg : ℕ), InDomain (params.num.dec arg) →
    ∃ t, runFor 4
        { State.reset with
          cmds := [encode (.setWaveform w), encode (.setFrequency arg), encode .nextSample]
          env := [Moment.present, Moment.present, Moment.present, Moment.take] } = .next t ∧
      t.taken = [params.num.synth w (params.num.dec arg) params.sampleRate (1 % params.sampleRate)] ∧
      t.phaseIndex = 1 % params.sampleRate ∧ t.cmds = [] ∧ EndsWell t

/-! ### What a sample is worth (40_waveform_synthesis.md) -/

/-- R66 (a): the sample `next_sample` emits is finite and within `TOL` of the ideal value at the new phase. -/
def Obligations.EmittedSampleIsClose : Prop :=
  ∀ (s : State) (x : ℝ) (h : 0 < x), Invariant s → cmdReady s = true → params.num.val s.frequencyHz = .real x →
    ∃ t v y, exec .nextSample s = .next t ∧ t.smp = some v ∧ params.num.val v = .real y ∧
      |y - synthIdeal s.waveform ⟨x, h⟩ params.sampleRate t.phaseIndex| ≤
        params.tol s.waveform x params.sampleRate t.phaseIndex

/-- R60, R103: at and above the Nyquist frequency an additive waveform emits exactly `NUM.ZERO`, and the phase still
advances. -/
def Obligations.SilenceAtAndAboveNyquist : Prop :=
  ∀ (s : State) (x : ℝ), Invariant s → cmdReady s = true → s.waveform ≠ .sine →
    params.num.val s.frequencyHz = .real x → (params.sampleRate : ℝ) / 2 ≤ x →
    exec .nextSample s = .next
      { s with phaseIndex := (s.phaseIndex + 1) % params.sampleRate, smp := some params.num.zero }

/-- R54: `K_all` counts the included harmonics, `K_odd` the odd ones, and `K_all = 0` exactly when `f >= sr / 2`. -/
def Obligations.HarmonicCounts : Prop :=
  ∀ (f : Freq) (sr : ℕ),
    (∀ k : ℕ, 1 ≤ k → (k ≤ kAll f sr ↔ (f : ℝ) * k < (sr : ℝ) / 2)) ∧
    (allHarmonics f sr).card = kAll f sr ∧ (oddHarmonics f sr).card = kOdd f sr ∧
    kOdd f sr = ⌈(kAll f sr : ℝ) / 2⌉₊ ∧ (kAll f sr = 0 ↔ (sr : ℝ) / 2 ≤ (f : ℝ))

/-- R59: the loop, with its test made before each term, computes the sums of R56, R57 and R58, and ends by its own test:
more fuel than its measure changes nothing. -/
def Obligations.LoopComputesTheSums : Prop :=
  ∀ (f : Freq) (sr : ℕ) (p : ℝ) (fuel : ℕ), ⌈(sr : ℝ) / (2 * (f : ℝ))⌉₊ ≤ fuel →
    additiveLoop 2 coefRecip f sr p fuel 1 0 = squareIdeal f sr p ∧
    additiveLoop 1 coefRecip f sr p fuel 1 0 = sawIdeal f sr p ∧
    additiveLoop 2 coefRecipSq f sr p fuel 1 0 = triangleIdeal f sr p

/-- R60: at and above Nyquist the three sums are empty and give 0; Sine keeps its formula (R55, C2), which for an integer
phase is the aliased, folded sinusoid (R103): minus that of `sr - f` below the rate, 0 at it, that of `f - sr` above it. No
frequency outside the domain is spoken of (R61). -/
def Obligations.IdealAtAndAboveNyquist : Prop :=
  ∀ (f : Freq) (sr : ℕ), 1 ≤ sr → (sr : ℝ) / 2 ≤ (f : ℝ) →
    (∀ p : ℝ, squareIdeal f sr p = 0 ∧ sawIdeal f sr p = 0 ∧ triangleIdeal f sr p = 0) ∧
    ∀ p : ℕ, (∀ h : (f : ℝ) < sr, sineIdeal f sr p = - sineIdeal ⟨sr - f, sub_pos.mpr h⟩ sr p) ∧
      ((f : ℝ) = sr → sineIdeal f sr p = 0) ∧
      (∀ h : (sr : ℝ) < f, sineIdeal f sr p = sineIdeal ⟨f - sr, sub_pos.mpr h⟩ sr p)

/-- R53: a harmonic exactly at Nyquist, which the strict test leaves out, would have been 0 at every phase index. -/
def Obligations.BoundaryHarmonicIsZero : Prop :=
  ∀ (f : Freq) (k sr p : ℕ), 1 ≤ sr → (f : ℝ) * k = (sr : ℝ) / 2 → ¬ Included f k sr ∧ harm f k sr p = 0

/-- R56 to R58, corner cases: where only the fundamental is included the waveform equals Sine. -/
def Obligations.SingleHarmonicEqualsSine : Prop :=
  ∀ (f : Freq) (sr : ℕ) (p : ℝ), (f : ℝ) < (sr : ℝ) / 2 →
    ((sr : ℝ) / 6 ≤ (f : ℝ) → squareIdeal f sr p = sineIdeal f sr p ∧ triangleIdeal f sr p = sineIdeal f sr p) ∧
    ((sr : ℝ) / 4 ≤ (f : ℝ) → sawIdeal f sr p = sineIdeal f sr p)

/-- R64: periodicity in the phase, the value at phase 0, oddness, and the seamless wrap of an integer frequency. -/
def Obligations.PeriodicityInPhase : Prop :=
  ∀ (w : Waveform) (f : Freq) (sr : ℕ) (p : ℝ), 1 ≤ sr →
    synthIdeal w f sr (p + sr / (f : ℝ)) = synthIdeal w f sr p ∧ synthIdeal w f sr 0 = 0 ∧
    synthIdeal w f sr (-p) = - synthIdeal w f sr p ∧
    (∀ n : ℕ, (f : ℝ) = n → synthIdeal w f sr (p + sr) = synthIdeal w f sr p)

/-- R63 (a), (b): the only bounds that follow from the rules. -/
def Obligations.RangeBounds : Prop :=
  ∀ (f : Freq) (sr : ℕ) (p : ℝ),
    |sineIdeal f sr p| ≤ 1 ∧
    |squareIdeal f sr p| ≤ ∑ k ∈ oddHarmonics f sr, 1 / (k : ℝ) ∧
    |sawIdeal f sr p| ≤ ∑ k ∈ allHarmonics f sr, 1 / (k : ℝ) ∧
    |triangleIdeal f sr p| ≤ ∑ k ∈ oddHarmonics f sr, 1 / ((k : ℝ) * k) ∧
    ∑ k ∈ oddHarmonics f sr, 1 / ((k : ℝ) * k) < Real.pi ^ 2 / 8

/-- Worked examples (R55, R56, R58 and the vector `sr = 16, f = 2` of 95_test_vectors.md 2.5), exact; the Saw value lies
outside `[-1, 1]` (R63, C4). -/
def Obligations.WorkedExamples : Prop :=
  sineIdeal ⟨1, one_pos⟩ 8 1 = Real.sqrt 2 / 2 ∧
  squareIdeal ⟨1, one_pos⟩ 16 4 = 1 - 1 / 3 + 1 / 5 - 1 / 7 ∧
  triangleIdeal ⟨1, one_pos⟩ 16 4 = 1 - 1 / 9 + 1 / 25 - 1 / 49 ∧
  sawIdeal ⟨2, two_pos⟩ 16 1 = 1 / 2 + 2 * Real.sqrt 2 / 3 ∧ 1 < sawIdeal ⟨2, two_pos⟩ 16 1

/-- R101: at the wrap the angle restarts at 0 where the count gone on would have given the angle `2·pi·f`; the two agree for
an integer frequency. -/
def Obligations.WrapRestartsTheAngle : Prop :=
  ∀ (f : Freq) (sr : ℕ), 1 ≤ sr →
    advance sr (sr - 1) = 0 ∧ sineIdeal f sr 0 = 0 ∧ sineIdeal f sr sr = Real.sin (2 * Real.pi * (f : ℝ)) ∧
    (∀ n : ℕ, (f : ℝ) = n → sineIdeal f sr sr = 0)

/-- R8: the ideal instantiation meets all that R7 and R66 ask, with `TOL = 0`, at every sample rate. -/
def Obligations.IdealInstantiationConforms : Prop :=
  ∀ sr : ℕ, 1 ≤ sr → idealFormat.Conforms sr (fun _ _ _ _ => 0)

/-- R66: the suggested recipe `SYNTH_ref`, with nothing rounded, computes the ideal function. -/
def Obligations.ExactRecipeIsIdeal : Prop :=
  ∀ (w : Waveform) (f : Freq) (sr p fuel : ℕ), ⌈(sr : ℝ) / (2 * (f : ℝ))⌉₊ ≤ fuel →
    synthRef realOps fuel w (f : ℝ) sr p = synthIdeal w f sr p
end

