-- ==== Sys2Proof/Laws/Decode.lean ====
section
/-! SUPPORT. Laws/Decode.lean: the fields of a command word as numbers, and as the slices of R40 for every `FW`; the codes of
the waveforms. -/

namespace Sys2Proof

theorem opField_toNat (w : ℕ) : (opField w).toNat = w % 4 := rfl

theorem waveformField_toNat (a : ℕ) : (waveformField a).toNat = a % 4 := rfl

theorem opField_eq_iff (w : ℕ) (op : BitVec 2) : opField w = op ↔ w % 4 = op.toNat := by
  rw [← BitVec.toNat_inj, opField_toNat]

theorem div_four_lt {n w : ℕ} (h : w < 2 ^ (n + 2)) : w / 4 < 2 ^ n :=
  Nat.div_lt_of_lt_mul (by rwa [pow_add, mul_comm] at h)

/-- `op = cmd[1:0]` (R40). -/
theorem opField_eq_slice (w : ℕ) : (opField w).toNat = slice 1 0 w := by
  simp [opField_toNat, slice]

/-- `arg = cmd[CW-1:2]` for a word of `CW` bits (R40). -/
theorem argField_eq_slice {fw : ℕ} {w : ℕ} (h : w < 2 ^ commandWidth fw) :
    argField w = slice (commandWidth fw - 1) 2 w := by
  have hw : w / 4 < 2 ^ fw := div_four_lt h
  simp only [argField, slice, commandWidth, show fw + 2 - 1 + 1 - 2 = fw by omega]
  exact (Nat.mod_eq_of_lt hw).symm

/-- `arg.rsv = arg[FW-1:2]` for an operand field of `FW >= 2` bits (R40). -/
theorem reservedField_eq_slice {fw arg : ℕ} (hf : 2 ≤ fw) (h : arg < 2 ^ fw) :
    reservedField arg = slice (fw - 1) 2 arg := by
  obtain ⟨n, rfl⟩ := Nat.exists_eq_add_of_le' hf
  have ha : arg / 4 < 2 ^ n := div_four_lt h
  simp only [reservedField, slice, show n + 2 - 1 + 1 - 2 = n by omega]
  exact (Nat.mod_eq_of_lt ha).symm

/-- The operand field of a word of `CW` bits has `FW` bits. -/
theorem argField_lt {fw : ℕ} {w : ℕ} (h : w < 2 ^ commandWidth fw) : argField w < 2 ^ fw :=
  div_four_lt h

theorem waveformOfCode_code (w : Waveform) : waveformOfCode (waveformCode w) = w := by
  cases w <;> rfl

theorem code_waveformOfCode (c : BitVec 2) : waveformCode (waveformOfCode c) = c := by
  revert c; decide

end Sys2Proof
end

