-- ==== Sys2Proof/Laws/State.lean ====
section
/-! SUPPORT. Laws/State.lean: what each named update does to each field, so that no proof unfolds a record update. -/

namespace Sys2Proof.Machine

@[simp] theorem raiseFault_waveform (c : FaultCode) (s : State) : (raiseFault c s).waveform = s.waveform := rfl
@[simp] theorem raiseFault_frequencyHz (c : FaultCode) (s : State) : (raiseFault c s).frequencyHz = s.frequencyHz := rfl
@[simp] theorem raiseFault_sampleRate (c : FaultCode) (s : State) : (raiseFault c s).sampleRate = s.sampleRate := rfl
@[simp] theorem raiseFault_phaseIndex (c : FaultCode) (s : State) : (raiseFault c s).phaseIndex = s.phaseIndex := rfl
@[simp] theorem raiseFault_fault (c : FaultCode) (s : State) : (raiseFault c s).fault = c := rfl
@[simp] theorem raiseFault_smp (c : FaultCode) (s : State) : (raiseFault c s).smp = s.smp := rfl
@[simp] theorem raiseFault_cmds (c : FaultCode) (s : State) : (raiseFault c s).cmds = s.cmds := rfl
@[simp] theorem raiseFault_env (c : FaultCode) (s : State) : (raiseFault c s).env = s.env := rfl
@[simp] theorem raiseFault_taken (c : FaultCode) (s : State) : (raiseFault c s).taken = s.taken := rfl

@[simp] theorem emit_waveform (v : Datum) (s : State) : (emit v s).waveform = s.waveform := rfl
@[simp] theorem emit_frequencyHz (v : Datum) (s : State) : (emit v s).frequencyHz = s.frequencyHz := rfl
@[simp] theorem emit_sampleRate (v : Datum) (s : State) : (emit v s).sampleRate = s.sampleRate := rfl
@[simp] theorem emit_phaseIndex (v : Datum) (s : State) : (emit v s).phaseIndex = s.phaseIndex := rfl
@[simp] theorem emit_fault (v : Datum) (s : State) : (emit v s).fault = s.fault := rfl
@[simp] theorem emit_smp (v : Datum) (s : State) : (emit v s).smp = some v := rfl
@[simp] theorem emit_cmds (v : Datum) (s : State) : (emit v s).cmds = s.cmds := rfl
@[simp] theorem emit_env (v : Datum) (s : State) : (emit v s).env = s.env := rfl
@[simp] theorem emit_taken (v : Datum) (s : State) : (emit v s).taken = s.taken := rfl

@[simp] theorem resetBlock_waveform (s : State) : (resetBlock s).waveform = params.initWaveform := rfl
@[simp] theorem resetBlock_frequencyHz (s : State) : (resetBlock s).frequencyHz = params.initFrequency := rfl
@[simp] theorem resetBlock_sampleRate (s : State) : (resetBlock s).sampleRate = s.sampleRate := rfl
@[simp] theorem resetBlock_phaseIndex (s : State) : (resetBlock s).phaseIndex = 0 := rfl
@[simp] theorem resetBlock_fault (s : State) : (resetBlock s).fault = .none := rfl
@[simp] theorem resetBlock_smp (s : State) : (resetBlock s).smp = none := rfl
@[simp] theorem resetBlock_cmds (s : State) : (resetBlock s).cmds = s.cmds := rfl
@[simp] theorem resetBlock_env (s : State) : (resetBlock s).env = s.env := rfl
@[simp] theorem resetBlock_taken (s : State) : (resetBlock s).taken = s.taken := rfl

@[simp] theorem presentWord_waveform (w : ℕ) (s : State) : (presentWord w s).waveform = s.waveform := rfl
@[simp] theorem presentWord_frequencyHz (w : ℕ) (s : State) : (presentWord w s).frequencyHz = s.frequencyHz := rfl
@[simp] theorem presentWord_sampleRate (w : ℕ) (s : State) : (presentWord w s).sampleRate = s.sampleRate := rfl
@[simp] theorem presentWord_phaseIndex (w : ℕ) (s : State) : (presentWord w s).phaseIndex = s.phaseIndex := rfl
@[simp] theorem presentWord_fault (w : ℕ) (s : State) : (presentWord w s).fault = s.fault := rfl
@[simp] theorem presentWord_smp (w : ℕ) (s : State) : (presentWord w s).smp = s.smp := rfl
@[simp] theorem presentWord_cmds (w : ℕ) (s : State) : (presentWord w s).cmds = w :: s.cmds := rfl
@[simp] theorem presentWord_env (w : ℕ) (s : State) : (presentWord w s).env = Moment.present :: s.env := rfl
@[simp] theorem presentWord_taken (w : ℕ) (s : State) : (presentWord w s).taken = s.taken := rfl

end Sys2Proof.Machine
end

