-- ==== Sys2Proof/Laws/Ops.lean ====
section
/-! SUPPORT. Laws/Ops.lean: one lemma for each shared operation, saying everything it can do. -/

namespace Sys2Proof

theorem advance_of_lt {sr p : ℕ} (h : p + 1 < sr) : advance sr p = p + 1 := if_pos h

theorem advance_of_not_lt {sr p : ℕ} (h : ¬ p + 1 < sr) : advance sr p = 0 := if_neg h

/-- What one sample can be (R68): nothing, because the frequency is refused, or the sample at the advanced phase. -/
theorem sampleAt_cases {D : Type} (N : NumFormat D) (w : Waveform) (f : D) (sr p : ℕ) :
    (N.positive f = false ∧ sampleAt N w f sr p = none) ∨
    (N.positive f = true ∧ sampleAt N w f sr p = some (advance sr p, N.synth w f sr (advance sr p))) := by
  cases h : N.positive f <;> simp [sampleAt, h]

namespace Machine

theorem cmdReady_iff (s : State) : cmdReady s = true ↔ s.fault = .none ∧ s.smp = none := by
  simp [cmdReady, smpValid]

/-- The comparator of the configuration decides the domain of R68 step 2. -/
theorem positive_iff_inDomain (d : Datum) : params.num.positive d = true ↔ InDomain d :=
  params_wf.num_conforms.positive_iff d

theorem whenAccepted_ready {s : State} (h : cmdReady s = true) (t : State) : whenAccepted s t = .next t := by
  simp [whenAccepted, h]

theorem whenAccepted_not_ready {s : State} (h : cmdReady s = false) (t : State) :
    whenAccepted s t = .fault .notAccepted := by
  simp [whenAccepted, h]

/-- If acceptance answers a next state, the block was ready and that state is the one given. -/
theorem whenAccepted_next {s t u : State} (h : whenAccepted s t = .next u) : cmdReady s = true ∧ u = t := by
  cases hr : cmdReady s with
  | true => rw [whenAccepted_ready hr] at h; exact ⟨rfl, (Host.Outcome.next.inj h).symm⟩
  | false => rw [whenAccepted_not_ready hr] at h; cases h

/-- What taking a sample can do: nothing on an empty port, otherwise move the waiting sample to the observation. -/
theorem takeSample_cases (s : State) :
    (s.smp = none ∧ takeSample s = s) ∨
    (∃ v, s.smp = some v ∧ takeSample s = { s with smp := none, taken := s.taken ++ [v] }) := by
  cases h : s.smp with
  | none => exact .inl ⟨rfl, by simp [takeSample, h]⟩
  | some v => exact .inr ⟨v, rfl, by simp [takeSample, h]⟩

/-- What `next_sample` can do to a state, over any format (R68). -/
theorem nextSampleOn_cases (N : NumFormat Datum) (s : State) :
    (N.positive s.frequencyHz = false ∧ nextSampleOn N s = { s with fault := .freqDomain }) ∨
    (N.positive s.frequencyHz = true ∧ nextSampleOn N s =
      { s with phaseIndex := advance s.sampleRate s.phaseIndex
               smp := some (N.synth s.waveform s.frequencyHz s.sampleRate (advance s.sampleRate s.phaseIndex)) }) := by
  rcases sampleAt_cases N s.waveform s.frequencyHz s.sampleRate s.phaseIndex with ⟨h, e⟩ | ⟨h, e⟩
  · exact .inl ⟨h, by simp [nextSampleOn, e, raiseFault]⟩
  · exact .inr ⟨h, by simp [nextSampleOn, e, emit]⟩

/-- Everything an executed command can do: if `exec` answers a next state, the block was ready and one of these holds. -/
theorem exec_cases {i : Instr} {s t : State} (h : exec i s = .next t) :
    cmdReady s = true ∧
    ((i = .nextSample ∧ params.num.positive s.frequencyHz = false ∧ t = { s with fault := .freqDomain }) ∨
     (i = .nextSample ∧ params.num.positive s.frequencyHz = true ∧
        t = { s with
          phaseIndex := advance s.sampleRate s.phaseIndex
          smp := some (params.num.synth s.waveform s.frequencyHz s.sampleRate (advance s.sampleRate s.phaseIndex)) }) ∨
     (∃ w, i = .setWaveform w ∧ t = { s with waveform := w }) ∨
     (∃ arg, i = .setFrequency arg ∧ t = { s with frequencyHz := params.num.dec arg })) := by
  cases i with
  | nextSample =>
    obtain ⟨hr, rfl⟩ := whenAccepted_next h
    rcases nextSampleOn_cases params.num.toNumFormat s with ⟨hp, e⟩ | ⟨hp, e⟩
    · exact ⟨hr, .inl ⟨rfl, hp, e⟩⟩
    · exact ⟨hr, .inr (.inl ⟨rfl, hp, e⟩)⟩
  | setWaveform w =>
    obtain ⟨hr, rfl⟩ := whenAccepted_next h
    exact ⟨hr, .inr (.inr (.inl ⟨w, rfl, rfl⟩))⟩
  | setFrequency arg =>
    obtain ⟨hr, rfl⟩ := whenAccepted_next h
    exact ⟨hr, .inr (.inr (.inr ⟨arg, rfl, rfl⟩))⟩

end Machine

end Sys2Proof
end

