-- ==== Sys2Proof/Laws/PerInstr.lean ====
section
/-! SUPPORT. Laws/PerInstr.lean: one law per command. The family OpcodeField: the low two bits of a command's word are the
opcode of R41, whatever its operand (R40). -/

namespace Sys2Proof.Laws.OpcodeField

/-- The word of the command carries its opcode in `cmd[1:0]`. -/
def Statement (i : Instr) : Prop :=
  opField (encode i) = opcodeOf i

theorem opField_commandWord (arg : ℕ) (op : BitVec 2) : opField (commandWord arg op) = op := by
  apply BitVec.eq_of_toNat_eq
  have h := op.isLt
  simp only [opField, commandWord, BitVec.toNat_ofNat]
  omega

theorem nextSample : Statement .nextSample := opField_commandWord _ _

theorem setWaveform (w : Waveform) : Statement (.setWaveform w) := opField_commandWord _ _

theorem setFrequency (arg : ℕ) : Statement (.setFrequency arg) := opField_commandWord _ _

end Sys2Proof.Laws.OpcodeField
end

