-- ==== Sys2Proof/Laws/Step.lean ====
section
/-! SUPPORT. Laws/Step.lean: once, everything a step can do; the decoded word, and the equations of the step. -/

namespace Sys2Proof.Machine

theorem step_quiet {s : State} (h : s.env = []) : step s = .next s := by
  simp [step, nextMoment, h]

theorem step_moment {s : State} {m : Moment} {ms : List Moment} (h : s.env = m :: ms) :
    step s = playMoment m { s with env := ms } := by
  simp [step, nextMoment, h]

theorem acceptWord_command {w : ℕ} {i : Instr} (h : decode w = .command i) (s : State) :
    acceptWord w s = exec i s := by
  simp [acceptWord, h]

theorem acceptWord_illegal {w : ℕ} {why : IllegalWord} (h : decode w = .illegal why) (s : State) :
    acceptWord w s = whenAccepted s (raiseFault .illegalCmd s) := by
  simp [acceptWord, h]

/-- Everything one moment can do, with what it needs. -/
theorem playMoment_cases {m : Moment} {s t : State} (h : playMoment m s = .next t) :
    (m.rst = true ∧ t = resetBlock s) ∨
    (m.rst = false ∧ ∃ v, s.smp = some v ∧ m.smpReady = true ∧
      t = { s with smp := none, taken := s.taken ++ [v] }) ∨
    (m.rst = false ∧ t = s ∧
      ((s.smp ≠ none ∧ m.smpReady = false) ∨ (s.smp = none ∧ (s.fault ≠ .none ∨ m.cmdValid = false ∨ s.cmds = [])))) ∨
    (m.rst = false ∧ m.cmdValid = true ∧ cmdReady s = true ∧
      ∃ w ws, s.cmds = w :: ws ∧ acceptWord w { s with cmds := ws } = .next t) := by
  unfold playMoment at h
  split at h
  · rename_i hr
    exact .inl ⟨hr, (Host.Outcome.next.inj h).symm⟩
  rename_i hr
  replace hr : m.rst = false := by simpa using hr
  split at h
  · rename_i hv
    obtain ⟨v, hv⟩ := Option.isSome_iff_exists.mp hv
    have ht := (Host.Outcome.next.inj h).symm
    cases hs : m.smpReady with
    | true =>
      rw [hs, if_pos rfl] at ht
      exact .inr (.inl ⟨hr, v, hv, rfl, by simp [ht, takeSample, hv]⟩)
    | false =>
      rw [hs] at ht
      exact .inr (.inr (.inl ⟨hr, by simpa using ht, .inl ⟨by simp [hv], rfl⟩⟩))
  rename_i hv
  have hn : s.smp = none := by simpa [smpValid] using hv
  split at h
  · rename_i hc
    obtain ⟨hc1, hc2⟩ := Bool.and_eq_true_iff.mp hc
    split at h
    · rename_i hq
      exact .inr (.inr (.inl ⟨hr, (Host.Outcome.next.inj h).symm, .inr ⟨hn, .inr (.inr hq)⟩⟩))
    · rename_i w ws hq
      exact .inr (.inr (.inr ⟨hr, hc1, hc2, w, ws, hq, h⟩))
  · rename_i hc
    refine .inr (.inr (.inl ⟨hr, (Host.Outcome.next.inj h).symm, .inr ⟨hn, ?_⟩⟩))
    cases hv1 : m.cmdValid with
    | false => exact .inr (.inl rfl)
    | true =>
      refine .inl fun hf => hc ?_
      simp [hv1, cmdReady_iff, hf, hn]

/-- Accepting a word in a ready state always answers a next state. -/
theorem acceptWord_ready (w : ℕ) {s : State} (h : cmdReady s = true) : ∃ t, acceptWord w s = .next t := by
  cases hd : decode w with
  | command i =>
    rw [acceptWord_command hd]
    cases i <;> exact ⟨_, whenAccepted_ready h _⟩
  | illegal why => rw [acceptWord_illegal hd]; exact ⟨_, whenAccepted_ready h _⟩

end Sys2Proof.Machine
end

