-- ==== Sys2Proof/Laws/Synthesis.lean ====
section
/-! SUPPORT. Laws/Synthesis.lean: the small lemmas of the ideal synthesis. -/

namespace Sys2Proof

theorem abs_harm_le_one (f : Freq) (k sr : ℕ) (p : ℝ) : |harm f k sr p| ≤ 1 := Real.abs_sin_le_one _

theorem harm_one (f : Freq) (sr : ℕ) (p : ℝ) : harm f 1 sr p = sineIdeal f sr p := by
  simp [harm, sineIdeal]

theorem coefRecip_nonneg (k : ℕ) : 0 ≤ coefRecip k := by unfold coefRecip; positivity

theorem coefRecipSq_nonneg (k : ℕ) : 0 ≤ coefRecipSq k := by unfold coefRecipSq; positivity

/-- A turn of the loop whose test succeeds (R59). -/
theorem additiveLoop_included {f : Freq} {k sr : ℕ} (h : Included f k sr) (stride : ℕ) (coef : ℕ → ℝ) (p : ℝ) (fuel : ℕ) (acc : ℝ) :
    additiveLoop stride coef f sr p (fuel + 1) k acc =
      additiveLoop stride coef f sr p fuel (k + stride) (acc + coef k * harm f k sr p) :=
  if_pos h

/-- The first harmonic that fails the test ends the sum (R53, R59). -/
theorem additiveLoop_excluded {f : Freq} {k sr : ℕ} (h : ¬ Included f k sr) (stride : ℕ) (coef : ℕ → ℝ) (p : ℝ) (fuel : ℕ) (acc : ℝ) :
    additiveLoop stride coef f sr p fuel k acc = acc := by
  cases fuel with
  | zero => rfl
  | succ n => exact if_neg h

theorem mem_allHarmonics {f : Freq} {k sr : ℕ} : k ∈ allHarmonics f sr ↔ 1 ≤ k ∧ k ≤ kAll f sr := Finset.mem_Icc

theorem mem_oddHarmonics {f : Freq} {k sr : ℕ} : k ∈ oddHarmonics f sr ↔ (1 ≤ k ∧ k ≤ kAll f sr) ∧ k % 2 = 1 := by
  simp [oddHarmonics]

end Sys2Proof
end

