-- ==== Sys2Proof/Machine/Assembly.lean ====
section
/-! DEFINITION. Machine/Assembly.lean: the assembly text's lines and the words they stand for (R50). No step of the machine
reads text; the line `reset` stands for a pulse of `rst`, a moment of the environment, and has no word. -/

namespace Sys2Proof

/-- A line of a listing (R50). A frequency is written as a decimal literal, a rational. -/
inductive AsmLine where
  | nextSample
  | setWaveform (w : Waveform)
  | setFrequency (literal : ℚ)
  | reset
  deriving DecidableEq, Repr

/-- The mnemonic of a command: the source's call name (R41, R50). -/
def mnemonicOf (i : Instr) : String :=
  match i with
  | .nextSample => "next_sample"
  | .setWaveform _ => "set_waveform"
  | .setFrequency _ => "set_frequency"

/-- The assembler name of a waveform (R42). -/
def waveformName (w : Waveform) : String :=
  match w with
  | .sine => "sine"
  | .square => "square"
  | .saw => "saw"
  | .triangle => "triangle"

/-- `d` is a datum of `NUM` nearest to `x` (R50): no datum with a real value is nearer. -/
def NearestDatum (x : ℚ) (d : Datum) : Prop :=
  params.num.dec d = d ∧ ∃ v, params.num.val d = .real v ∧
    ∀ e u, params.num.dec e = e → params.num.val e = .real u → |v - (x : ℝ)| ≤ |u - (x : ℝ)|

/-- The line stands for the command word (R50). The line `reset` stands for none. -/
inductive Assembles : AsmLine → ℕ → Prop where
  | nextSample : Assembles .nextSample (encode .nextSample)
  | setWaveform (w : Waveform) : Assembles (.setWaveform w) (encode (.setWaveform w))
  | setFrequency (x : ℚ) (d : Datum) (h : NearestDatum x d) : Assembles (.setFrequency x) (encode (.setFrequency d))

end Sys2Proof
end

