-- ==== Sys2Proof/Tests/Slice0.lean ====
section
/-! SUPPORT. Tests/Slice0.lean: the model's own tests. Expected results come from spec/95_test_vectors.md and from the rules;
the second half shows, for every statement with hypotheses, that something meets them. -/

open Sys2Proof Sys2Proof.Machine

/-! ### Well-formedness: an ill-formed term for each check, which the check refuses (R6, R7, R39, R43, R66) -/

theorem test_operand_wider_than_fw_is_refused : wellFormed 32 (.setFrequency (2 ^ 32)) = false := by decide

theorem test_operand_of_fw_bits_is_wellformed : wellFormed 32 (.setFrequency (2 ^ 32 - 1)) = true := by decide

theorem test_rate_zero_is_refused : ¬ ({ Params.sample with sampleRate := 0 } : Params).Wf :=
  fun h => absurd h.rate_pos (by decide)

theorem test_initial_frequency_not_a_datum_is_refused : ¬ ({ Params.sample with initFrequency := 4 } : Params).Wf :=
  fun h => absurd h.init_datum (by decide)

/-- The sample configuration with another numeric record. -/
def withNum (N : WordFormat) : Params := { Params.sample with num := N }

theorem test_fw_one_is_refused : ¬ (withNum { Params.sample.num with fw := 1 }).Wf :=
  fun h => absurd h.num_wf.fw_ge_two (by decide)

theorem test_code_wider_than_fw_is_refused : ¬ (withNum { Params.sample.num with dec := fun b => b }).Wf :=
  fun h => absurd (h.num_wf.code_fits 4) (by decide)

theorem test_codec_not_inverse_is_refused : ¬ (withNum { Params.sample.num with dec := fun b => (b + 1) % 4 }).Wf :=
  fun h => absurd (h.num_wf.dec_code 0) (by decide)

theorem test_number_that_is_no_datum_is_refused : ¬ (withNum { Params.sample.num with val := fun _ => .real 0 }).Wf :=
  fun h => NumVal.noConfusion (h.num_wf.no_datum_no_number 4 (by decide))

theorem test_zero_not_a_datum_is_refused : ¬ (withNum { Params.sample.num with zero := 4 }).Wf :=
  fun h => absurd h.num_wf.zero_datum (by decide)

theorem test_sample_not_a_datum_is_refused : ¬ (withNum { Params.sample.num with synth := fun _ _ _ _ => 4 }).Wf :=
  fun h => absurd (h.num_wf.synth_datum .sine 0 1 0) (by decide)

theorem test_ofNat_not_a_datum_is_refused : ¬ (withNum { Params.sample.num with ofNat := fun n => n + 4 }).Wf :=
  fun h => absurd (h.ofNat_datum 1 (by decide)) (by decide)

theorem test_rate_beyond_the_format_is_refused : ¬ ({ Params.sample with sampleRate := 4 } : Params).Wf :=
  fun h => absurd (h.ofNat_datum 4 (le_refl 4)) (by decide)

theorem test_comparator_that_misses_a_frequency_is_refused :
    ¬ (withNum { Params.sample.num with positive := fun _ => false }).Wf := fun h => by
  simpa [withNum, Params.sample] using h.num_conforms.positive_iff 1

theorem test_negative_zero_as_zero_is_refused :
    ¬ (withNum { Params.sample.num with negZero := fun _ => true }).Wf :=
  fun h => absurd h.num_conforms.zero_positive (by decide)

/-- A format with two zeros, the integers 0 and 1, neither of which is called negative. -/
def twoZeros : WordFormat := { Params.sample.num with val := fun d => if d ≤ 1 then .real 0 else .nan }

theorem test_two_positive_zeros_are_refused : ¬ (withNum twoZeros).Wf := fun h =>
  absurd (h.num_conforms.two_zeros 1 (by decide) (by simp [withNum, twoZeros]) fun e he =>
    Nat.le_one_iff_eq_zero_or_eq_one.mp (by simpa [withNum, twoZeros] using he)) (by decide)

theorem test_negative_tolerance_is_refused : ¬ ({ Params.sample with tol := fun _ _ _ _ => -1 } : Params).Wf :=
  fun h => absurd (h.num_conforms.tol_nonneg .sine 0 0 0) (by norm_num)

/-! ### Decoding, 95_test_vectors.md 2.1; words written bit by bit from R40 and R41 -/

theorem test_decode_next_sample : decode 0b0000000000000000000000000000000000 = .command .nextSample := by decide
theorem test_decode_set_waveform_sine : decode 0b0000000000000000000000000000000001 = .command (.setWaveform .sine) := by decide
theorem test_decode_set_waveform_square : decode 0b0000000000000000000000000000000101 = .command (.setWaveform .square) := by decide
theorem test_decode_set_waveform_saw : decode 0b0000000000000000000000000000001001 = .command (.setWaveform .saw) := by decide
theorem test_decode_set_waveform_triangle : decode 0b0000000000000000000000000000001101 = .command (.setWaveform .triangle) := by decide
theorem test_decode_set_frequency_440 : decode 0x10F700002 = .command (.setFrequency 0x43DC0000) := by decide
theorem test_decode_set_frequency_minus_one : decode 0x2FE000002 = .command (.setFrequency 0xBF800000) := by decide
theorem test_decode_reserved_opcode : decode 0x000000003 = .illegal .reservedOpcode := by decide
theorem test_decode_next_sample_top_bit : decode 0x200000000 = .illegal .nextSampleOperand := by decide
theorem test_decode_set_waveform_first_reserved_bit : decode 0x000000011 = .illegal .waveformReservedBits := by decide
theorem test_decode_set_waveform_top_bit : decode 0x200000001 = .illegal .waveformReservedBits := by decide
theorem test_table_word_above_cw_is_no_command : decodeTableWord 40 (2 ^ 34) = none := by decide
theorem test_table_word_set_frequency : decodeTableWord 40 0x0FE000002 = some (.setFrequency 0x3F800000) := by decide

/-! ### The first step after reset, with each command's word placed by the host -/

theorem test_step_runs_set_waveform_after_reset :
    step (State.reset.withFetchWord 40 5) = .next { State.reset with waveform := .square } := rfl

theorem test_step_runs_set_frequency_after_reset :
    step (State.reset.withFetchWord 40 2) = .next { State.reset with frequencyHz := params.num.dec 0 } := rfl

theorem test_step_runs_next_sample_after_reset :
    step (State.reset.withFetchWord 40 0) = .next (nextSampleOn params.num.toNumFormat State.reset) := rfl

/-! ### Single commands, 95_test_vectors.md 2.8, over an illustrative format: the domain test of IEEE 754 binary32
(PRESUMED, general knowledge, log 19), and a `synth` that answers the phase and the rate it was asked for. -/

/-- The illustrative format. -/
def probeFormat : NumFormat Datum where
  val := fun _ => .nan
  positive := fun d => decide (0 < d ∧ d < 0x7F800000)
  zero := 0
  negZero := fun d => decide (d = 0x80000000)
  ofNat := fun n => n
  synth := fun _ _ sr p => 100 * sr + p

/-- A state written as the vectors write one: waveform, frequency, rate, phase. -/
def probeState (w : Waveform) (f : Datum) (sr p : Nat) : State :=
  { waveform := w, frequencyHz := f, sampleRate := sr, phaseIndex := p, fault := .none, smp := none, cmds := [], env := [], taken := [] }

theorem test_next_sample_uses_the_new_phase :
    nextSampleOn probeFormat (probeState .saw 0x3F800000 16 0) =
      { probeState .saw 0x3F800000 16 1 with smp := some 1601 } := by decide

theorem test_next_sample_wraps :
    nextSampleOn probeFormat (probeState .sine 0x3F800000 8 7) =
      { probeState .sine 0x3F800000 8 0 with smp := some 800 } := by decide

theorem test_next_sample_negative_zero_faults :
    nextSampleOn probeFormat (probeState .sine 0x80000000 16 5) =
      { probeState .sine 0x80000000 16 5 with fault := .freqDomain } := by decide

theorem test_next_sample_infinite_faults :
    nextSampleOn probeFormat (probeState .sine 0x7F800000 16 0) =
      { probeState .sine 0x7F800000 16 0 with fault := .freqDomain } := by decide

theorem test_illegal_word_writes_nothing_but_fault :
    acceptWord 0x1D (probeState .sine 0x3F800000 16 5) =
      .next { probeState .sine 0x3F800000 16 5 with fault := .illegalCmd } := rfl

/-! ### Phase advance and width, 95_test_vectors.md 2.7 -/

theorem test_advance_vectors : [advance 48000 0, advance 48000 47998, advance 48000 47999, advance 8 6, advance 8 7, advance 2 0,
    advance 2 1, advance 1 0] = [1, 47999, 0, 7, 0, 1, 0, 0] := by decide

theorem test_phase_width_vectors : [phaseWidth 48000, phaseWidth 44100, phaseWidth 8, phaseWidth 16, phaseWidth 2, phaseWidth 1] =
    [16, 16, 3, 4, 1, 1] := by
  norm_num [phaseWidth]

/-! ### Back-pressure, reset and halt, 95_test_vectors.md 2.9 -/

theorem test_word_waits_while_a_sample_waits :
    step { probeState .sine 0x3F800000 8 1 with smp := some 7, cmds := [0x100000002], env := [⟨false, true, false⟩] } =
      .next { probeState .sine 0x3F800000 8 1 with smp := some 7, cmds := [0x100000002] } := rfl

theorem test_sample_taken_with_no_word_accepted :
    step { probeState .sine 0x3F800000 8 1 with smp := some 7, cmds := [0], env := [⟨false, true, true⟩] } =
      .next { probeState .sine 0x3F800000 8 1 with cmds := [0], taken := [7] } := rfl

theorem test_reset_loses_the_waiting_sample :
    step { probeState .square 0x40000000 8 6 with smp := some 7, cmds := [3], env := [⟨true, true, true⟩] } =
      .next { probeState params.initWaveform params.initFrequency 8 0 with cmds := [3] } := rfl

theorem test_halted_block_accepts_nothing :
    step { probeState .sine 0 8 1 with fault := .freqDomain, cmds := [2], env := [⟨false, true, true⟩] } =
      .next { probeState .sine 0 8 1 with fault := .freqDomain, cmds := [2] } := rfl

theorem test_fault_output_codes :
    [faultBits .none, faultBits .illegalCmd, faultBits .freqDomain] = [0, 1, 2] := by decide

/-! ### Harmonic counts, 95_test_vectors.md 2.2, and ideal values, 2.3 to 2.6 -/

/-- The frequency of a vector. -/
def hz (f : ℝ) (h : 0 < f := by norm_num) : Freq := ⟨f, h⟩

theorem test_kAll_440 : kAll (hz 440) 48000 = 54 ∧ kOdd (hz 440) 48000 = 27 := by
  have h : kAll (hz 440) 48000 = 54 := by
    unfold kAll hz
    rw [show ⌈((48000 : ℕ) : ℝ) / (2 * 440)⌉₊ = 55 from (Nat.ceil_eq_iff (by norm_num)).2 (by norm_num)]
  exact ⟨h, by unfold kOdd; rw [h]⟩

theorem test_kAll_boundary_excluded : kAll (hz 8000) 48000 = 2 ∧ kAll (hz 24000) 48000 = 0 ∧ kAll (hz 1) 16 = 7 := by
  refine ⟨?_, ?_, ?_⟩ <;> norm_num [kAll, hz]

theorem test_kAll_odd_rate : kAll (hz (1 / 2)) 3 = 2 := by norm_num [kAll, hz]

theorem test_sine_quarter_rate : sineIdeal (hz 4) 16 1 = 1 := by
  unfold sineIdeal hz
  rw [show (1 : ℝ) * 4 * 2 * Real.pi / (16 : ℕ) = Real.pi / 2 by push_cast; ring, Real.sin_pi_div_two]

/-! ### Something meets the hypotheses of every statement that has them -/

/-- The datum of 1 is in the domain of every well-formed configuration: its rate is at least 1. -/
theorem witness_one_in_domain : params.num.val (params.num.ofNat 1) = .real ((1 : ℕ) : ℝ) ∧ (0 : ℝ) < ((1 : ℕ) : ℝ) :=
  ⟨params_wf.num_conforms.ofNat_val 1 params_wf.rate_pos, by norm_num⟩

theorem witness_one_InDomain : InDomain (params.num.ofNat 1) := ⟨_, witness_one_in_domain⟩

theorem witness_one_is_a_datum : params.num.dec (params.num.ofNat 1) = params.num.ofNat 1 :=
  params_wf.ofNat_datum 1 params_wf.rate_pos

/-- A state that accepts a command and holds the frequency 1. -/
def readyState : State := { State.reset with frequencyHz := params.num.ofNat 1 }

theorem witness_readyState_ready : cmdReady readyState = true := rfl

theorem witness_readyState_Invariant : Invariant readyState where
  rate := rfl
  phase_lt := params_wf.rate_pos
  phase_fits := Nat.pow_pos (by decide)
  freq_datum := witness_one_is_a_datum
  halted_silent := fun _ => rfl
  smp_datum := fun v h => by simp [readyState, State.reset] at h
  words_fit := fun w h => by simp [readyState, State.reset] at h
  taken_data := fun v h => by simp [readyState, State.reset] at h

/-- A word below 16 fits the command port of every well-formed configuration: its `FW` is at least 2. -/
theorem small_word_fits {w : ℕ} (h : w < 16) : w < 2 ^ CW :=
  lt_of_lt_of_le (b := 2 ^ 4) h (Nat.pow_le_pow_right two_pos (Nat.add_le_add_right params_wf.num_wf.fw_ge_two 2))

theorem witness_DecodeGivesBackEncodedCommand : 2 ≤ 32 ∧ wellFormed 32 (.setFrequency 0xFFFFFFFF) = true ∧
    2 ≤ 2 ∧ wellFormed 2 (.setFrequency 3) = true ∧ wellFormed 2 (.setWaveform .triangle) = true := by decide

theorem witness_DecodedWordIsTheEncoding : 0x3FFFFFFFE < 2 ^ commandWidth 32 ∧
    decode 0x3FFFFFFFE = .command (.setFrequency 0xFFFFFFFF) ∧ 9 < 2 ^ commandWidth 2 ∧
    decode 9 = .command (.setWaveform .saw) := by decide

theorem witness_CountOfValidWords : 2 ≤ 2 := le_refl 2

theorem witness_NextSampleAdvancesThenEmits_domain :
    cmdReady readyState = true ∧ params.num.val readyState.frequencyHz = .real ((1 : ℕ) : ℝ) ∧ (0 : ℝ) < ((1 : ℕ) : ℝ) :=
  ⟨rfl, witness_one_in_domain⟩

theorem witness_zero_not_in_domain : ¬ ∃ x, params.num.val params.num.zero = .real x ∧ 0 < x := by
  rintro ⟨x, hx, h⟩
  rw [params_wf.num_conforms.zero_val] at hx
  cases hx
  exact lt_irrefl _ h

theorem witness_NextSampleAdvancesThenEmits_fault :
    cmdReady { State.reset with frequencyHz := params.num.zero } = true ∧
    ¬ ∃ x, params.num.val ({ State.reset with frequencyHz := params.num.zero } : State).frequencyHz = .real x ∧ 0 < x :=
  ⟨rfl, witness_zero_not_in_domain⟩

/-- For SetWaveformWritesWaveformOnly, SetFrequencyWritesFrequencyOnly, SettersCommute, ReplacedFrequencyLeavesNoTrace. -/
theorem witness_reset_accepts_a_command : cmdReady State.reset = true := rfl

theorem witness_EveryDatumCanBeHeld : params.num.dec params.num.zero = params.num.zero ∧ cmdReady State.reset = true :=
  ⟨params_wf.num_wf.zero_datum, rfl⟩

theorem witness_BadFrequencyFaultsAtUse : cmdReady State.reset = true ∧
    ∃ x, params.num.val (params.num.dec params.num.zero) = .real x ∧ x ≤ 0 :=
  ⟨rfl, (0 : ℝ), by rw [params_wf.num_wf.zero_datum]; exact params_wf.num_conforms.zero_val, le_refl 0⟩

theorem witness_EachFieldHasItsWriters : exec (.setWaveform .saw) State.reset = .next { State.reset with waveform := .saw } := rfl

theorem witness_NothingExecutesUnlessAccepted_halted : ({ State.reset with fault := .illegalCmd } : State).fault ≠ .none := by
  simp

theorem witness_NothingExecutesUnlessAccepted_waiting : ({ State.reset with smp := some 0 } : State).smp ≠ none := by simp

theorem witness_NextSampleUsesTheLatestSettings : cmdReady State.reset = true ∧ InDomain (params.num.dec (params.num.ofNat 1)) :=
  ⟨rfl, by rw [witness_one_is_a_datum]; exact witness_one_InDomain⟩

theorem witness_AdvanceWrapsAtTheSampleRate : 47999 < 48000 ∧ 47998 < 48000 ∧ 0 < 1 := by decide

theorem witness_PhaseWidthIsLeast : 1 ≤ 16 ∧ 48000 ≤ 2 ^ 16 := by decide

/-- A ready state in which the owner presents the word at the next moment. -/
def offering (w : ℕ) (f : Datum) : State :=
  { State.reset with frequencyHz := f, cmds := [w], env := [Moment.present] }

theorem witness_StepExecutesTheDecodedCommand : (offering 13 0).env = [Moment.present] ∧ Moment.present.rst = false ∧
    Moment.present.cmdValid = true ∧ cmdReady (offering 13 0) = true ∧ (offering 13 0).cmds = [13] ∧
    decode 13 = .command (.setWaveform .triangle) := ⟨rfl, rfl, rfl, rfl, rfl, by decide⟩

theorem witness_StepExecutesTheDecodedCommand_placed :
    cmdReady State.reset = true ∧ decodeTableWord 40 13 = some (.setWaveform .triangle) := ⟨rfl, by decide⟩

theorem witness_StepFunctionOnAnAcceptedWord : (offering 0 0).env = [Moment.present] ∧ Moment.present.rst = false ∧
    Moment.present.cmdValid = true ∧ (offering 0 0).fault = .none ∧ (offering 0 0).smp = none ∧ (offering 0 0).cmds = [0] :=
  ⟨rfl, rfl, rfl, rfl, rfl, rfl⟩

theorem witness_StepFunctionOnAnAcceptedWord_clauses :
    decode 3 = .illegal .reservedOpcode ∧ decode 1 = .command (.setWaveform .sine) ∧
    decode 2 = .command (.setFrequency 0) ∧ decode 0 = .command .nextSample ∧
    InDomain (offering 0 (params.num.ofNat 1)).frequencyHz ∧ ¬ InDomain (offering 0 params.num.zero).frequencyHz :=
  ⟨by decide, by decide, by decide, by decide, witness_one_InDomain, witness_zero_not_in_domain⟩

theorem witness_StepFunctionOnAnAcceptedWord_halted :
    ({ offering 0 0 with fault := .illegalCmd } : State).env = [Moment.present] ∧
    ({ offering 0 0 with fault := .illegalCmd } : State).fault ≠ .none ∧
    ({ offering 0 0 with fault := .illegalCmd } : State).smp = none := ⟨rfl, by simp, rfl⟩

/-- One word for each of the three reasons, the smallest of each. -/
theorem witness_IllegalWordRaisesAndNothingElse : cmdReady (offering 4 0) = true ∧
    3 % 4 = 3 ∧ (4 % 4 = 0 ∧ 4 / 4 ≠ 0) ∧ (17 % 4 = 1 ∧ 17 / 16 ≠ 0) :=
  ⟨rfl, by decide, by decide, by decide⟩

/-- For WordsLeaveOnlyWhenAccepted, SamplesAreNeitherDroppedNorDuplicated and InvariantIsKeptByEveryStep. -/
theorem witness_a_step_is_taken : step (offering 5 0) = .next { offering 5 0 with waveform := .square, cmds := [], env := [] } := rfl

theorem witness_HaltedUntilReset : Invariant { readyState with fault := .freqDomain, env := [Moment.present] } ∧
    ({ readyState with fault := .freqDomain, env := [Moment.present] } : State).fault ≠ .none ∧
    NoReset (({ readyState with fault := .freqDomain, env := [Moment.present] } : State).env.take 1) :=
  ⟨{ witness_readyState_Invariant with halted_silent := fun _ => rfl }, by simp, by simp [NoReset, Moment.present]⟩

theorem witness_SampleIsHeldUntilTaken : ({ State.reset with smp := some 5, env := [Moment.present] } : State).smp = some 5 ∧
    ∀ m ∈ ({ State.reset with smp := some 5, env := [Moment.present] } : State).env.take 2,
      m.rst = false ∧ m.smpReady = false :=
  ⟨rfl, by simp [Moment.present]⟩

theorem witness_SampleIsTakenWhenReady : ({ State.reset with smp := some 5, env := [Moment.take] } : State).env = [Moment.take] ∧
    Moment.take.rst = false ∧ Moment.take.smpReady = true ∧
    ({ State.reset with smp := some 5, env := [Moment.take] } : State).smp = some 5 := ⟨rfl, rfl, rfl, rfl⟩

theorem witness_IdleBlockKeepsItsState : ({ State.reset with env := [Moment.take] } : State).smp = none ∧
    Moment.take.rst = false ∧ Moment.take.cmdValid = false ∧ Moment.present.rst = false ∧
    ({ State.reset with env := [Moment.present] } : State).cmds = [] := ⟨rfl, rfl, rfl, rfl, rfl⟩

/-- A moment with every input high. -/
def resetMoment : Moment := { rst := true, cmdValid := true, smpReady := true }

/-- Two states that differ in what they hold, with the same reset to come. -/
def waitingState : State := { readyState with smp := some 5, cmds := [0], env := [resetMoment] }

def advancedState : State := { State.reset with phaseIndex := 3, cmds := [0], env := [resetMoment] }

/-- For ResetRestoresTheResetState and the first clause of HaltedUntilReset. -/
theorem witness_ResetRestoresTheResetState : waitingState.env = [resetMoment] ∧ resetMoment.rst = true ∧
    waitingState.sampleRate = params.sampleRate := ⟨rfl, rfl, rfl⟩

theorem witness_RestartRepeatsTheSamples : waitingState.env = [resetMoment] ∧ advancedState.env = [resetMoment] ∧
    resetMoment.rst = true ∧ waitingState.cmds = advancedState.cmds ∧
    waitingState.sampleRate = advancedState.sampleRate := ⟨rfl, rfl, rfl, rfl, rfl⟩

theorem witness_PhaseCountsEmittedSamples : Invariant readyState ∧ NoReset (readyState.env.take 3) ∧
    runFor 3 readyState = .next readyState :=
  ⟨witness_readyState_Invariant, by simp [NoReset, readyState, State.reset], rfl⟩

theorem witness_StreamOfSamples : Invariant { readyState with cmds := [0, 0, 1], env := sampling 2 } ∧
    cmdReady { readyState with cmds := [0, 0, 1], env := sampling 2 } = true ∧
    InDomain ({ readyState with cmds := [0, 0, 1], env := sampling 2 } : State).frequencyHz ∧
    ({ readyState with cmds := [0, 0, 1], env := sampling 2 } : State).cmds = List.replicate 2 0 ++ [1] ∧
    ({ readyState with cmds := [0, 0, 1], env := sampling 2 } : State).env = sampling 2 ++ [] :=
  ⟨{ witness_readyState_Invariant with words_fit := fun w hw => small_word_fits (by
      simp only [List.mem_cons, List.not_mem_nil, or_false] at hw; rcases hw with rfl | rfl | rfl <;> decide) },
    rfl, witness_one_InDomain, rfl, rfl⟩

theorem witness_SamplesDoNotDependOnTheSchedule :
    SameButEnv { State.reset with cmds := [5], env := [Moment.present] } { State.reset with cmds := [5], env := [Moment.take, Moment.present] } ∧
    NoReset [Moment.present] ∧ NoReset [Moment.take, Moment.present] ∧
    runFor 1 { State.reset with cmds := [5], env := [Moment.present] } = .next { State.reset with waveform := .square } ∧
    runFor 2 { State.reset with cmds := [5], env := [Moment.take, Moment.present] } = .next { State.reset with waveform := .square } :=
  ⟨rfl, by simp [NoReset, Moment.present], by simp [NoReset, Moment.present, Moment.take], rfl, rfl⟩

/-- A ready state with two words to send. -/
def sendingState : State := { readyState with cmds := [0, 5], env := sampling 2 }

theorem witness_OnlyTwoWaysToEndBadly : sendingState.fault = .none ∧ InDomain sendingState.frequencyHz ∧
    NoReset sendingState.env ∧
    ∀ w ∈ sendingState.cmds, (∃ i, decode w = .command i) ∧
      ∀ arg, decode w = .command (.setFrequency arg) → InDomain (params.num.dec arg) := by
  have h0 : decode 0 = .command .nextSample := by decide
  have h5 : decode 5 = .command (.setWaveform .square) := by decide
  refine ⟨rfl, witness_one_InDomain, by simp [NoReset, sendingState, sampling, Moment.present, Moment.take], ?_⟩
  intro w hw
  simp only [sendingState, List.mem_cons, List.not_mem_nil, or_false] at hw
  rcases hw with rfl | rfl
  · exact ⟨⟨_, h0⟩, fun arg h => by rw [h0] at h; cases h⟩
  · exact ⟨⟨_, h5⟩, fun arg h => by rw [h5] at h; cases h⟩

/-- For FirstSampleAfterReset. -/
theorem witness_FirstSampleAfterReset : InDomain (params.num.dec (params.num.ofNat 1)) := witness_NextSampleUsesTheLatestSettings.2

theorem witness_EmittedSampleIsClose : Invariant readyState ∧ cmdReady readyState = true ∧
    params.num.val readyState.frequencyHz = .real ((1 : ℕ) : ℝ) ∧ (0 : ℝ) < ((1 : ℕ) : ℝ) :=
  ⟨witness_readyState_Invariant, rfl, witness_one_in_domain⟩

/-- For OutputsFollowTheState. -/
theorem witness_OutputsFollowTheState : Invariant { readyState with fault := .illegalCmd } ∧
    ({ readyState with fault := .illegalCmd } : State).fault ≠ .none :=
  ⟨{ witness_readyState_Invariant with halted_silent := fun _ => rfl }, by simp⟩

/-- A ready state with an additive waveform at a frequency of the sample rate. -/
def silentState : State := { readyState with waveform := .saw, frequencyHz := params.num.ofNat params.sampleRate }

theorem witness_SilenceAtAndAboveNyquist : Invariant silentState ∧ cmdReady silentState = true ∧
    silentState.waveform ≠ .sine ∧ params.num.val silentState.frequencyHz = .real (params.sampleRate : ℝ) ∧
    (params.sampleRate : ℝ) / 2 ≤ params.sampleRate :=
  ⟨{ witness_readyState_Invariant with freq_datum := params_wf.ofNat_datum _ (le_refl _) }, rfl,
    by simp [silentState], params_wf.num_conforms.ofNat_val _ (le_refl _), half_le_self (by positivity)⟩

/-- For LoopComputesTheSums and ExactRecipeIsIdeal, at the least fuel, and PeriodicityInPhase. -/
theorem witness_least_fuel : ⌈((16 : ℕ) : ℝ) / (2 * (hz 1 : ℝ))⌉₊ ≤ 8 ∧ 1 ≤ 16 ∧ (hz 1 : ℝ) = (1 : ℕ) := by
  refine ⟨?_, by decide, ?_⟩ <;> norm_num [hz]

/-- For IdealAtAndAboveNyquist: at Nyquist, at the rate, above it. -/
theorem witness_IdealAtAndAboveNyquist : 1 ≤ 16 ∧ (((16 : ℕ) : ℝ) / 2 ≤ (hz 8 : ℝ) ∧ (hz 8 : ℝ) < (16 : ℕ)) ∧
    (((16 : ℕ) : ℝ) / 2 ≤ (hz 16 : ℝ) ∧ (hz 16 : ℝ) = (16 : ℕ)) ∧
    (((16 : ℕ) : ℝ) / 2 ≤ (hz 17 : ℝ) ∧ ((16 : ℕ) : ℝ) < (hz 17 : ℝ)) := by
  norm_num [hz]

theorem witness_BoundaryHarmonicIsZero : 1 ≤ 48000 ∧ (hz 8000 : ℝ) * (3 : ℕ) = ((48000 : ℕ) : ℝ) / 2 := by
  norm_num [hz]

/-- For SingleHarmonicEqualsSine, each clause at the lower end of its range. -/
theorem witness_SingleHarmonicEqualsSine : ((hz 3 : ℝ) < ((18 : ℕ) : ℝ) / 2 ∧ ((18 : ℕ) : ℝ) / 6 ≤ (hz 3 : ℝ)) ∧
    ((hz 4 : ℝ) < ((16 : ℕ) : ℝ) / 2 ∧ ((16 : ℕ) : ℝ) / 4 ≤ (hz 4 : ℝ)) := by
  norm_num [hz]

/-- For WrapRestartsTheAngle and IdealInstantiationConforms. -/
theorem witness_least_rate : 1 ≤ 1 ∧ (hz 1 : ℝ) = (1 : ℕ) := ⟨le_refl 1, by norm_num [hz]⟩

/-- The frequencies that SINE's formula would extend to have no place in the domain (R61). -/
theorem test_no_frequency_is_zero_or_negative (f : Freq) : ¬ (f : ℝ) ≤ 0 := not_le.mpr f.property

/-! ### Assembly lines (R50) -/

theorem test_set_waveform_line : Assembles (.setWaveform .saw) 9 := Assembles.setWaveform .saw

theorem test_mnemonics : [mnemonicOf .nextSample, mnemonicOf (.setWaveform .saw), mnemonicOf (.setFrequency 0)] =
    ["next_sample", "set_waveform", "set_frequency"] := by decide
end

section
/-! Proofs of the statements on the parameters (00_scope.md): the width of the phase counter (R6), silence of the additive
waveforms at and above Nyquist (R60), and the ideal instantiation (R8). -/

namespace Sys2Proof

/-! ### The width of the phase counter (R6) -/

/-- `phaseWidth` by its defining property: among the widths of at least one bit it is the lower end of those that hold `sr`. -/
theorem phaseWidth_le_iff {sr n : ℕ} (hn : 1 ≤ n) : phaseWidth sr ≤ n ↔ sr ≤ 2 ^ n := by
  rw [phaseWidth, max_le_iff, Nat.clog_le_iff_le_pow one_lt_two, and_iff_right hn]

theorem one_le_phaseWidth (sr : ℕ) : 1 ≤ phaseWidth sr := le_max_left _ _

theorem le_two_pow_phaseWidth (sr : ℕ) : sr ≤ 2 ^ phaseWidth sr :=
  (phaseWidth_le_iff (one_le_phaseWidth sr)).mp le_rfl

/-- Settles O17: the width is at least 1, and `phaseWidth_le_iff` is both halves of "least". -/
theorem phaseWidthIsLeast : Obligations.PhaseWidthIsLeast := fun sr =>
  ⟨one_le_phaseWidth sr, le_two_pow_phaseWidth sr, fun _ hn hsr => (phaseWidth_le_iff hn).mpr hsr⟩

/-! ### Nothing is included at and above Nyquist (R53, R54, R60) -/

/-- `K_all` counts the harmonics that pass the strict test of R53. -/
theorem le_kAll_iff_included {f : Freq} {k sr : ℕ} (hk : 1 ≤ k) : k ≤ kAll f sr ↔ Included f k sr := by
  have hf : 0 < 2 * (f : ℝ) := mul_pos two_pos f.property
  calc k ≤ kAll f sr
      ↔ k < ⌈(sr : ℝ) / (2 * (f : ℝ))⌉₊ := by unfold kAll; omega
    _ ↔ (k : ℝ) < (sr : ℝ) / (2 * (f : ℝ)) := Nat.lt_ceil
    _ ↔ (k : ℝ) * (2 * (f : ℝ)) < sr := lt_div_iff₀ hf
    _ ↔ Included f k sr := by unfold Included; constructor <;> intro h <;> linarith

theorem kAll_eq_zero_iff {f : Freq} {sr : ℕ} : kAll f sr = 0 ↔ (sr : ℝ) / 2 ≤ (f : ℝ) := by
  have hfirst : 1 ≤ kAll f sr ↔ (f : ℝ) < (sr : ℝ) / 2 := by
    simpa [Included] using le_kAll_iff_included (f := f) (sr := sr) le_rfl
  rw [← not_lt, ← hfirst, Nat.one_le_iff_ne_zero, not_not]

theorem allHarmonics_eq_empty {f : Freq} {sr : ℕ} (h : (sr : ℝ) / 2 ≤ (f : ℝ)) : allHarmonics f sr = ∅ := by
  simp [allHarmonics, kAll_eq_zero_iff.mpr h]

theorem oddHarmonics_eq_empty {f : Freq} {sr : ℕ} (h : (sr : ℝ) / 2 ≤ (f : ℝ)) : oddHarmonics f sr = ∅ := by
  simp [oddHarmonics, kAll_eq_zero_iff.mpr h]

/-- At and above Nyquist every waveform but Sine, which is never truncated (R55), is the empty sum. -/
theorem synthIdeal_eq_zero_of_nyquist_le {w : Waveform} {f : Freq} {sr : ℕ} (hw : w ≠ .sine)
    (h : (sr : ℝ) / 2 ≤ (f : ℝ)) (p : ℝ) : synthIdeal w f sr p = 0 := by
  cases w with
  | sine => exact absurd rfl hw
  | square => simp [synthIdeal, squareIdeal, oddHarmonics_eq_empty h]
  | saw => simp [synthIdeal, sawIdeal, allHarmonics_eq_empty h]
  | triangle => simp [synthIdeal, triangleIdeal, oddHarmonics_eq_empty h]

/-! ### The ideal instantiation (R8) -/

@[simp] theorem idealFormat_val (x : ℝ) : idealFormat.val x = .real x := rfl

@[simp] theorem idealFormat_zero : idealFormat.zero = 0 := rfl

/-- On its domain the SYNTH of `REAL` is the ideal function, so the open value of log 20 is not met. -/
theorem idealFormat_synth_of_pos (w : Waveform) {x : ℝ} (h : 0 < x) (sr p : ℕ) :
    idealFormat.synth w x sr p = synthIdeal w ⟨x, h⟩ sr p :=
  dif_pos h

theorem idealFormat_positive_iff (x : ℝ) : idealFormat.positive x = true ↔ 0 < x := decide_eq_true_iff

/-- R66 (a) with no tolerance at all. -/
theorem idealFormat_close (w : Waveform) {x : ℝ} (h : 0 < x) (sr p : ℕ) :
    ∃ v, idealFormat.val (idealFormat.synth w x sr p) = .real v ∧ |v - synthIdeal w ⟨x, h⟩ sr p| ≤ 0 :=
  ⟨synthIdeal w ⟨x, h⟩ sr p, by rw [idealFormat_val, idealFormat_synth_of_pos w h], by simp⟩

/-- R66 (b): a rate of at least 1 puts Nyquist, and all frequencies above it, in the domain. -/
theorem idealFormat_silent {w : Waveform} {x : ℝ} {sr : ℕ} (hsr : 1 ≤ sr) (hw : w ≠ .sine) (hx : (sr : ℝ) / 2 ≤ x) (p : ℕ) :
    idealFormat.synth w x sr p = idealFormat.zero := by
  have hpos : 0 < x := lt_of_lt_of_le (half_pos (Nat.cast_pos.mpr hsr)) hx
  rw [idealFormat_synth_of_pos w hpos, idealFormat_zero]
  exact synthIdeal_eq_zero_of_nyquist_le hw hx p

/-- Settles O50: closeness is equality with the ideal function, silence is the empty sum at and above Nyquist, and the reals
have one zero, so the demands on a second one ask nothing. -/
theorem idealInstantiationConforms : Obligations.IdealInstantiationConforms := fun sr hsr =>
  { positive_iff := fun d => by simp [idealFormat_positive_iff]
    zero_val := rfl
    negZero_val := fun _ h => absurd h Bool.false_ne_true
    zero_positive := rfl
    two_zeros := fun _ hd hv _ => absurd (NumVal.real.inj hv) hd
    ofNat_val := fun _ _ => rfl
    tol_nonneg := fun _ _ _ _ => le_rfl
    close := fun w _ _ p h hv _ => by
      obtain rfl := NumVal.real.inj hv
      exact idealFormat_close w h sr p
    silent := fun _ _ _ p hw hv hx _ => by
      obtain rfl := NumVal.real.inj hv
      exact idealFormat_silent hsr hw hx p }

end Sys2Proof
end

section
/-! Proofs of the statements on the state (10_state.md): the state after reset (R24), which command writes which field (R78),
the data `frequency_hz` can hold (R15), and the invariant of the machine, at reset and along every step (R13, R17, R84). -/

namespace Sys2Proof.Machine

/-! ### What reset establishes (R24) -/

/-- Settles O31: every field of the reset state is written out in R24, and a block with no fault and no sample is ready. -/
theorem stateAfterReset : Obligations.StateAfterReset :=
  ⟨rfl, rfl, rfl, rfl, rfl, rfl, (cmdReady_iff State.reset).mpr ⟨rfl, rfl⟩⟩

/-- A reset asks nothing of the block itself: only what it leaves alone, the rate, the owner's words and the samples already
taken, must have been in order. -/
theorem invariant_resetBlock {s : State} (hrate : s.sampleRate = params.sampleRate) (hwords : ∀ w ∈ s.cmds, w < 2 ^ CW)
    (htaken : ∀ v ∈ s.taken, params.num.dec v = v) : Invariant (resetBlock s) where
  rate := hrate
  phase_lt := by
    rw [resetBlock_phaseIndex, resetBlock_sampleRate, hrate]
    exact params_wf.rate_pos
  phase_fits := Nat.two_pow_pos _
  freq_datum := params_wf.init_datum
  halted_silent := fun _ => rfl
  smp_datum := fun _ h => absurd h (by simp)
  words_fit := hwords
  taken_data := htaken

/-- Settles O32: the reset state is what a reset leaves of itself. -/
theorem invariantHoldsAtReset : Obligations.InvariantHoldsAtReset :=
  invariant_resetBlock (s := State.reset) rfl (List.forall_mem_nil _) (List.forall_mem_nil _)

/-! ### The frame of the commands (R78) and what `frequency_hz` can hold (R15) -/

/-- Settles O11: in each of the four ways a command can end (`exec_cases`) the next state is an update of the fields the
command may write. -/
theorem eachFieldHasItsWriters : Obligations.EachFieldHasItsWriters := by
  intro i s t h
  obtain ⟨-, ⟨rfl, -, rfl⟩ | ⟨rfl, -, rfl⟩ | ⟨w, rfl, rfl⟩ | ⟨arg, rfl, rfl⟩⟩ := exec_cases h
  · exact ⟨rfl, rfl, rfl, rfl, fun _ => rfl, fun _ => rfl, fun hi => absurd rfl hi⟩
  · exact ⟨rfl, rfl, rfl, rfl, fun _ => rfl, fun _ => rfl, fun hi => absurd rfl hi⟩
  · exact ⟨rfl, rfl, rfl, rfl, fun hi => absurd ⟨w, rfl⟩ hi, fun _ => rfl, fun _ => ⟨rfl, rfl, rfl⟩⟩
  · exact ⟨rfl, rfl, rfl, rfl, fun _ => rfl, fun hi => absurd ⟨arg, rfl⟩ hi, fun _ => ⟨rfl, rfl, rfl⟩⟩

/-- A datum is its own code, so it has `FW` bits (R7, R13). -/
theorem datum_lt {d : Datum} (hd : params.num.dec d = d) : d < 2 ^ FW :=
  lt_of_eq_of_lt hd.symm (params_wf.num_wf.code_fits d)

/-- R71 in a state that accepts a command. -/
theorem exec_setFrequency_of_ready {s : State} (hs : cmdReady s = true) (arg : ℕ) :
    exec (.setFrequency arg) s = .next { s with frequencyHz := params.num.dec arg } :=
  whenAccepted_ready hs _

/-- Settles O9: the operand that spells the datum is its code. -/
theorem everyDatumCanBeHeld : Obligations.EveryDatumCanBeHeld := fun d s hd hs =>
  ⟨d, _, decide_eq_true (datum_lt hd), exec_setFrequency_of_ready hs d, hd, ((cmdReady_iff s).mp hs).1⟩

/-! ### Every step keeps the invariant, operation by operation -/

/-- R17: whatever the phase was, the advance leaves a legal one. -/
theorem advance_lt {sr : ℕ} (hsr : 0 < sr) (p : ℕ) : advance sr p < sr := by
  by_cases h : p + 1 < sr
  · rwa [advance_of_lt h]
  · rwa [advance_of_not_lt h]

/-- A fault keeps the invariant where no sample waits: a halted block then presents none (R84). -/
theorem raiseFault_keeps_invariant {s : State} (hs : Invariant s) (hsmp : s.smp = none) (c : FaultCode) :
    Invariant (raiseFault c s) :=
  { hs with halted_silent := fun _ => hsmp }

/-- The new phase and a datum on the port keep the invariant where no fault is recorded. -/
theorem emit_advance_keeps_invariant {s : State} (hs : Invariant s) (hf : s.fault = .none) {v : Datum}
    (hv : params.num.dec v = v) :
    Invariant (emit v { s with phaseIndex := advance s.sampleRate s.phaseIndex }) :=
  have hphase : advance s.sampleRate s.phaseIndex < s.sampleRate := advance_lt (Nat.zero_lt_of_lt hs.phase_lt) _
  { hs with
    phase_lt := hphase
    phase_fits := hphase.trans_le (le_two_pow_phaseWidth _)
    halted_silent := fun h => absurd hf h
    smp_datum := fun u hu => by
      obtain rfl := Option.some.inj hu
      exact hv }

/-- The sample that leaves the port was a datum, so what has been taken are still data (R28). -/
theorem taken_sample_keeps_invariant {s : State} (hs : Invariant s) {v : Datum} (hv : s.smp = some v) :
    Invariant { s with smp := none, taken := s.taken ++ [v] } :=
  { hs with
    halted_silent := fun _ => rfl
    smp_datum := fun _ h => absurd h (by simp)
    taken_data := fun u hu => by
      rcases List.mem_append.mp hu with hu | hu
      · exact hs.taken_data u hu
      · obtain rfl := List.mem_singleton.mp hu
        exact hs.smp_datum u hv }

theorem dropped_word_keeps_invariant {s : State} (hs : Invariant s) {w : ℕ} {ws : List ℕ} (hw : s.cmds = w :: ws) :
    Invariant { s with cmds := ws } :=
  { hs with words_fit := fun u hu => hs.words_fit u (hw ▸ List.mem_cons_of_mem w hu) }

theorem exec_keeps_invariant {i : Instr} {s t : State} (hs : Invariant s) (h : exec i s = .next t) : Invariant t := by
  obtain ⟨hready, hcases⟩ := exec_cases h
  obtain ⟨hfault, hsmp⟩ := (cmdReady_iff s).mp hready
  obtain ⟨-, -, rfl⟩ | ⟨-, -, rfl⟩ | ⟨w, -, rfl⟩ | ⟨arg, -, rfl⟩ := hcases
  · exact raiseFault_keeps_invariant hs hsmp .freqDomain
  · exact emit_advance_keeps_invariant hs hfault (params_wf.num_wf.synth_datum _ _ _ _)
  · exact { hs with }
  · exact { hs with freq_datum := params_wf.num_wf.dec_code arg }

theorem acceptWord_keeps_invariant {w : ℕ} {s t : State} (hs : Invariant s) (h : acceptWord w s = .next t) :
    Invariant t := by
  cases hd : decode w with
  | command i =>
    rw [acceptWord_command hd] at h
    exact exec_keeps_invariant hs h
  | illegal why =>
    rw [acceptWord_illegal hd] at h
    obtain ⟨hready, rfl⟩ := whenAccepted_next h
    exact raiseFault_keeps_invariant hs ((cmdReady_iff s).mp hready).2 .illegalCmd

theorem playMoment_keeps_invariant {m : Moment} {s t : State} (hs : Invariant s) (h : playMoment m s = .next t) :
    Invariant t := by
  obtain ⟨-, rfl⟩ | ⟨-, v, hv, -, rfl⟩ | ⟨-, rfl, -⟩ | ⟨-, -, -, w, ws, hw, haccept⟩ := playMoment_cases h
  · exact invariant_resetBlock hs.rate hs.words_fit hs.taken_data
  · exact taken_sample_keeps_invariant hs hv
  · exact hs
  · exact acceptWord_keeps_invariant (dropped_word_keeps_invariant hs hw) haccept

/-- Settles O33: a step is the next moment, of which the invariant does not speak, and every moment keeps it. -/
theorem invariantIsKeptByEveryStep : Obligations.InvariantIsKeptByEveryStep := by
  intro s t hs h
  cases henv : s.env with
  | nil =>
    rw [step_quiet henv] at h
    exact Host.Outcome.next.inj h ▸ hs
  | cons m ms =>
    rw [step_moment henv] at h
    have hms : Invariant { s with env := ms } := { hs with }
    exact playMoment_keeps_invariant hms h

end Sys2Proof.Machine
end

section
/-! Proofs of the statements on the ports (20_memory.md): the outputs (R26, R80), the acceptance of words (R27, R67), the sample
port (R28, R32, R33), the settings a sample uses (R31), and that the schedule does not matter (R30). -/

namespace Sys2Proof.Machine

/-! ### The shared rules: a moment from what it needs, and the way into a step and a run -/

/-- R28: at a moment with `smp_ready = 1` the waiting sample goes to the consumer. -/
theorem playMoment_take {m : Moment} {s : State} {v : Datum} (hrst : m.rst = false) (hready : m.smpReady = true)
    (hv : s.smp = some v) : playMoment m s = .next { s with smp := none, taken := s.taken ++ [v] } := by
  simp [playMoment, takeSample, smpValid, hrst, hready, hv]

/-- R33: a waiting sample that is not taken holds the block. -/
theorem playMoment_hold {m : Moment} {s : State} {v : Datum} (hrst : m.rst = false) (hready : m.smpReady = false)
    (hv : s.smp = some v) : playMoment m s = .next s := by
  simp [playMoment, smpValid, hrst, hready, hv]

/-- R27: a ready block accepts the word presented to it. -/
theorem playMoment_accept {m : Moment} {s : State} {w : ℕ} {ws : List ℕ} (hrst : m.rst = false)
    (hvalid : m.cmdValid = true) (hready : cmdReady s = true) (hw : s.cmds = w :: ws) :
    playMoment m s = acceptWord w { s with cmds := ws } := by
  have hsmp : smpValid s = false := by simp [smpValid, ((cmdReady_iff s).mp hready).2]
  simp [playMoment, hrst, hvalid, hready, hsmp, hw]

/-- Executing a word leaves the owner's words, the moments to come and the samples taken alone. -/
theorem acceptWord_frame {w : ℕ} {s t : State} (h : acceptWord w s = .next t) :
    t.cmds = s.cmds ∧ t.env = s.env ∧ t.taken = s.taken := by
  cases hd : decode w with
  | command i =>
    rw [acceptWord_command hd] at h
    obtain ⟨-, htaken, hcmds, henv, -⟩ := eachFieldHasItsWriters i s t h
    exact ⟨hcmds, henv, htaken⟩
  | illegal why =>
    rw [acceptWord_illegal hd] at h
    obtain ⟨-, rfl⟩ := whenAccepted_next h
    exact ⟨rfl, rfl, rfl⟩

/-- A moment does not look ahead: the moments after it stay as they are. -/
theorem playMoment_env {m : Moment} {s t : State} (h : playMoment m s = .next t) : t.env = s.env := by
  obtain ⟨-, rfl⟩ | ⟨-, v, -, -, rfl⟩ | ⟨-, rfl, -⟩ | ⟨-, -, -, w, ws, -, haccept⟩ := playMoment_cases h
  · rfl
  · rfl
  · rfl
  · exact (acceptWord_frame haccept).2.1

/-- A step is one moment, or nothing where none is left (log 9). -/
theorem step_cases {s t : State} (h : step s = .next t) :
    (s.env = [] ∧ t = s) ∨ ∃ m ms, s.env = m :: ms ∧ playMoment m { s with env := ms } = .next t := by
  cases henv : s.env with
  | nil => exact .inl ⟨rfl, (Host.Outcome.next.inj ((step_quiet henv).symm.trans h)).symm⟩
  | cons m ms => exact .inr ⟨m, ms, rfl, (step_moment henv).symm.trans h⟩

/-- A step uses up one moment. -/
theorem step_env {s t : State} (h : step s = .next t) : t.env = s.env.tail := by
  obtain ⟨henv, rfl⟩ | ⟨m, ms, henv, hplay⟩ := step_cases h
  · rw [henv, List.tail_nil]
  · rw [henv, List.tail_cons, playMoment_env hplay]

theorem runFor_succ_of_step {n : ℕ} {s t : State} (h : step s = .next t) : runFor (n + 1) s = runFor n t := by
  simp [runFor, h]

/-- A run that is carried out is a step and then the rest of the run. -/
theorem runFor_succ_next {n : ℕ} {s u : State} (h : runFor (n + 1) s = .next u) :
    ∃ t, step s = .next t ∧ runFor n t = .next u := by
  cases hstep : step s with
  | next t => exact ⟨t, rfl, runFor_succ_of_step hstep ▸ h⟩
  | fault r => simp [runFor, hstep] at h
  | refused r => simp [runFor, hstep] at h

/-! ### The transfers at the ports, apart from the moments at which they happen (R30) -/

/-- What a moment without reset can achieve, whatever its levels: the waiting sample is taken (R28), or the block is ready and
the owner's first word is accepted and executed (R27). A moment only decides whether the transfer happens now. -/
inductive Transfer (s : State) : State → Prop where
  | take {v : Datum} (hv : s.smp = some v) : Transfer s { s with smp := none, taken := s.taken ++ [v] }
  | accept {w : ℕ} {ws : List ℕ} {t : State} (hready : cmdReady s = true) (hw : s.cmds = w :: ws)
      (haccept : acceptWord w { s with cmds := ws } = .next t) : Transfer s t

/-- A moment without reset makes the transfer that is due, or changes nothing. -/
theorem playMoment_eq_or_transfer {m : Moment} {s t : State} (hrst : m.rst = false) (h : playMoment m s = .next t) :
    t = s ∨ Transfer s t := by
  obtain ⟨hr, -⟩ | ⟨-, v, hv, -, rfl⟩ | ⟨-, rfl, -⟩ | ⟨-, -, hready, w, ws, hw, haccept⟩ := playMoment_cases h
  · rw [hrst] at hr
    cases hr
  · exact .inr (.take hv)
  · exact .inl rfl
  · exact .inr (.accept hready hw haccept)

/-- R27: a waiting sample keeps the block from accepting a word. -/
theorem not_cmdReady_of_waiting {s : State} {v : Datum} (hv : s.smp = some v) : ¬ cmdReady s = true := by
  simp [cmdReady_iff, hv]

/-- The state alone decides which transfer is due, because a block with a sample waiting is not ready. -/
theorem transfer_rightUnique : Relator.RightUnique Transfer := by
  intro s t u ht hu
  cases ht with
  | take hv =>
    cases hu with
    | take hv' =>
      obtain rfl := Option.some.inj (hv.symm.trans hv')
      rfl
    | accept hready _ _ => exact absurd hready (not_cmdReady_of_waiting hv)
  | accept hready hw haccept =>
    cases hu with
    | take hv' => exact absurd hready (not_cmdReady_of_waiting hv')
    | accept _ hw' haccept' =>
      obtain ⟨rfl, rfl⟩ := List.cons.inj (hw.symm.trans hw')
      exact Host.Outcome.next.inj (haccept.symm.trans haccept')

/-- A transfer adds to the samples taken and revises none of them. -/
theorem taken_prefix_of_transfer {s t : State} (h : Transfer s t) : s.taken <+: t.taken := by
  cases h with
  | take hv => exact List.prefix_append _ _
  | accept _ _ haccept => exact (acceptWord_frame haccept).2.2 ▸ List.prefix_rfl

/-- Nothing is due once the words are used up and the last sample is taken. -/
theorem no_transfer_of_done {s t : State} (hcmds : s.cmds = []) (hsmp : s.smp = none) : ¬ Transfer s t := by
  rintro (⟨hv⟩ | ⟨-, hw, -⟩)
  · simp [hsmp] at hv
  · simp [hcmds] at hw

theorem taken_prefix_of_transfers {s t : State} (h : Relation.ReflTransGen Transfer s t) : s.taken <+: t.taken := by
  induction h with
  | refl => exact List.prefix_rfl
  | tail _ hlast ih => exact ih.trans (taken_prefix_of_transfer hlast)

theorem eq_of_transfers_of_done {s t : State} (h : Relation.ReflTransGen Transfer s t) (hcmds : s.cmds = [])
    (hsmp : s.smp = none) : s = t := by
  obtain rfl | ⟨u, hfirst, -⟩ := h.cases_head
  · rfl
  · exact absurd hfirst (no_transfer_of_done hcmds hsmp)

/-! ### Transfers do not look at the moments to come -/

/-- The state without the moments still to come: `SameButEnv s t` says that `s` and `t` have the same one. -/
def forgetEnv (s : State) : State :=
  { s with env := [] }

theorem sameButEnv_iff {s t : State} : SameButEnv s t ↔ forgetEnv s = forgetEnv t := Iff.rfl

theorem nextSampleOn_forgetEnv (N : NumFormat Datum) (s : State) :
    nextSampleOn N (forgetEnv s) = forgetEnv (nextSampleOn N s) := by
  simp only [nextSampleOn, forgetEnv]
  cases sampleAt N s.waveform s.frequencyHz s.sampleRate s.phaseIndex <;> rfl

theorem whenAccepted_forgetEnv {s t u : State} (h : whenAccepted s t = .next u) :
    whenAccepted (forgetEnv s) (forgetEnv t) = .next (forgetEnv u) := by
  obtain ⟨hready, rfl⟩ := whenAccepted_next h
  exact whenAccepted_ready hready _

theorem exec_forgetEnv {i : Instr} {s t : State} (h : exec i s = .next t) :
    exec i (forgetEnv s) = .next (forgetEnv t) := by
  cases i with
  | nextSample =>
    rw [exec, execNextSample, nextSampleOn_forgetEnv]
    exact whenAccepted_forgetEnv h
  | setWaveform w => exact whenAccepted_forgetEnv h
  | setFrequency arg => exact whenAccepted_forgetEnv h

theorem acceptWord_forgetEnv {w : ℕ} {s t : State} (h : acceptWord w s = .next t) :
    acceptWord w (forgetEnv s) = .next (forgetEnv t) := by
  cases hd : decode w with
  | command i =>
    rw [acceptWord_command hd] at h ⊢
    exact exec_forgetEnv h
  | illegal why =>
    rw [acceptWord_illegal hd] at h ⊢
    exact whenAccepted_forgetEnv h

theorem transfer_forgetEnv {s t : State} (h : Transfer s t) : Transfer (forgetEnv s) (forgetEnv t) := by
  cases h with
  | take hv => exact .take hv
  | accept hready hw haccept => exact .accept hready hw (acceptWord_forgetEnv haccept)

/-- A step without reset makes at most one transfer, and apart from that only uses its moment. -/
theorem step_forgetEnv {s t : State} (hrst : NoReset s.env) (h : step s = .next t) :
    forgetEnv t = forgetEnv s ∨ Transfer (forgetEnv s) (forgetEnv t) := by
  obtain ⟨-, rfl⟩ | ⟨m, ms, henv, hplay⟩ := step_cases h
  · exact .inl rfl
  · have hm : m.rst = false := hrst m (henv ▸ List.mem_cons_self)
    obtain rfl | htransfer := playMoment_eq_or_transfer hm hplay
    · exact .inl rfl
    · have hforget := transfer_forgetEnv htransfer
      exact .inr hforget

theorem noReset_of_step {s t : State} (hrst : NoReset s.env) (h : step s = .next t) : NoReset t.env :=
  fun m hm => hrst m (List.mem_of_mem_tail (step_env h ▸ hm))

/-- A run without reset is a chain of transfers: its schedule decides how many of them, not which. -/
theorem transfers_of_runFor {n : ℕ} {s t : State} (hrst : NoReset s.env) (h : runFor n s = .next t) :
    Relation.ReflTransGen Transfer (forgetEnv s) (forgetEnv t) := by
  induction n generalizing s with
  | zero =>
    obtain rfl := Host.Outcome.next.inj h
    exact .refl
  | succ n ih =>
    obtain ⟨u, hstep, hrun⟩ := runFor_succ_next h
    have hrest := ih (noReset_of_step hrst hstep) hrun
    obtain heq | htransfer := step_forgetEnv hrst hstep
    · exact heq ▸ hrest
    · exact .head htransfer hrest

/-- Settles O36: two runs from one state are chains of the same deterministic transfers, so one of them goes on from the
other's end; it can only add samples, and from an end with no words and no sample left it goes nowhere. -/
theorem samplesDoNotDependOnTheSchedule : Obligations.SamplesDoNotDependOnTheSchedule := by
  intro m n s t s' t' hst hs ht hrun hrun'
  have hs' := transfers_of_runFor hs hrun
  have ht' := transfers_of_runFor ht hrun'
  rw [← sameButEnv_iff.mp hst] at ht'
  obtain hgo | hgo := hs'.total_of_right_unique transfer_rightUnique ht'
  · have hprefix := taken_prefix_of_transfers hgo
    exact ⟨.inl hprefix, fun hcmds hsmp _ _ => eq_of_transfers_of_done hgo hcmds hsmp⟩
  · have hprefix := taken_prefix_of_transfers hgo
    exact ⟨.inr hprefix, fun _ _ hcmds hsmp => (eq_of_transfers_of_done hgo hcmds hsmp).symm⟩

/-! ### The settings a sample uses (R31) -/

/-- R70 in a state that accepts a command. -/
theorem exec_setWaveform_of_ready {s : State} (hs : cmdReady s = true) (w : Waveform) :
    exec (.setWaveform w) s = .next { s with waveform := w } :=
  whenAccepted_ready hs _

/-- R68 in a state that accepts a command and holds a frequency in the domain. -/
theorem exec_nextSample_of_inDomain {s : State} (hs : cmdReady s = true) (hf : InDomain s.frequencyHz) :
    exec .nextSample s = .next
      { s with
        phaseIndex := advance s.sampleRate s.phaseIndex
        smp := some (params.num.synth s.waveform s.frequencyHz s.sampleRate (advance s.sampleRate s.phaseIndex)) } := by
  have hpos := (positive_iff_inDomain s.frequencyHz).mpr hf
  obtain ⟨hneg, -⟩ | ⟨-, hnext⟩ := nextSampleOn_cases params.num.toNumFormat s
  · rw [hpos] at hneg
    cases hneg
  · exact (whenAccepted_ready hs _).trans (congrArg Host.Outcome.next hnext)

/-- Settles O15: the three commands complete one after the other, and the setters leave readiness, rate and phase as they
were. -/
theorem nextSampleUsesTheLatestSettings : Obligations.NextSampleUsesTheLatestSettings := fun w arg s hs hf =>
  ⟨{ s with waveform := w }, { s with waveform := w, frequencyHz := params.num.dec arg }, _,
    exec_setWaveform_of_ready hs w, exec_setFrequency_of_ready (s := { s with waveform := w }) hs arg,
    exec_nextSample_of_inDomain (s := { s with waveform := w, frequencyHz := params.num.dec arg }) hs hf, rfl, rfl⟩

/-! ### Words and samples leave one at a time (R27, R28, R32) -/

/-- Settles O23: of the four things a moment can do, only an acceptance touches the owner's words, and executing the accepted
word touches them no further. -/
theorem wordsLeaveOnlyWhenAccepted : Obligations.WordsLeaveOnlyWhenAccepted := by
  intro s t h
  obtain ⟨-, rfl⟩ | ⟨m, ms, henv, hplay⟩ := step_cases h
  · exact .inl rfl
  obtain ⟨-, rfl⟩ | ⟨-, v, -, -, rfl⟩ | ⟨-, rfl, -⟩ | ⟨hrst, hvalid, hready, w, ws, hw, haccept⟩ := playMoment_cases hplay
  · exact .inl rfl
  · exact .inl rfl
  · exact .inl rfl
  · obtain ⟨hcmds, -, -⟩ := acceptWord_frame haccept
    exact .inr ⟨w, m, ms, hcmds ▸ hw, henv, hrst, hvalid, hready⟩

/-- Settles O27: a waiting sample shuts out acceptance, which is the only way a sample gets on the port. -/
theorem samplesAreNeitherDroppedNorDuplicated : Obligations.SamplesAreNeitherDroppedNorDuplicated := by
  intro s t h
  obtain ⟨-, rfl⟩ | ⟨m, ms, henv, hplay⟩ := step_cases h
  · exact ⟨fun _ => rfl, fun v hv => .inl ⟨hv, rfl⟩⟩
  obtain ⟨hrst, rfl⟩ | ⟨-, u, hu, -, rfl⟩ | ⟨-, rfl, -⟩ | ⟨-, -, hready, w, ws, -, haccept⟩ := playMoment_cases hplay
  · exact ⟨fun _ => rfl, fun v _ => .inr (.inr ⟨rfl, rfl, m, ms, henv, hrst⟩)⟩
  · refine ⟨fun hn => absurd (hn.symm.trans hu) (by simp), fun v hv => .inr (.inl ⟨rfl, ?_⟩)⟩
    obtain rfl := Option.some.inj (hv.symm.trans hu)
    rfl
  · exact ⟨fun _ => rfl, fun v hv => .inl ⟨hv, rfl⟩⟩
  · obtain ⟨-, -, htaken⟩ := acceptWord_frame haccept
    exact ⟨fun _ => htaken, fun v hv => absurd hready (not_cmdReady_of_waiting hv)⟩

/-- Settles O26: the step is its moment, and such a moment takes the sample. -/
theorem sampleIsTakenWhenReady : Obligations.SampleIsTakenWhenReady := fun _ _ _ _ henv hrst hready hv =>
  (step_moment henv).trans (playMoment_take hrst hready hv)

/-- Settles O25, by induction on the number of moments: each of them holds the block, and past the last one a step changes
nothing at all. -/
theorem sampleIsHeldUntilTaken : Obligations.SampleIsHeldUntilTaken := by
  intro n
  induction n with
  | zero => exact fun _ _ _ _ => rfl
  | succ n ih =>
    intro s v hv hms
    cases henv : s.env with
    | nil =>
      rw [runFor_succ_of_step (step_quiet henv), ih s v hv (by simp [henv]), henv, List.drop_nil, List.drop_nil]
    | cons m ms =>
      rw [henv, List.take_succ_cons, List.forall_mem_cons] at hms
      obtain ⟨⟨hrst, hready⟩, hrest⟩ := hms
      have hstep : step s = .next { s with env := ms } :=
        (step_moment henv).trans (playMoment_hold hrst hready hv)
      rw [runFor_succ_of_step hstep, List.drop_succ_cons]
      exact ih { s with env := ms } v hv hrest

/-! ### The outputs (R26), and the step of an accepted word (R67) -/

/-- R80: the two bits tell the faults apart. -/
theorem faultBits_eq_iff (c d : FaultCode) : faultBits c = faultBits d ↔ c = d := by
  cases c <;> cases d <;> decide

theorem faultBits_ne_three (c : FaultCode) : faultBits c ≠ 3 := by
  cases c <;> decide

theorem outputs_cmdReady_iff (rst : Bool) (s : State) :
    (outputs rst s).cmdReady = true ↔ rst = false ∧ s.fault = .none ∧ s.smp = none := by
  simp [outputs, cmdReady_iff]

theorem outputs_smpValid_iff (rst : Bool) (s : State) :
    (outputs rst s).smpValid = true ↔ rst = false ∧ s.smp ≠ none := by
  simp [outputs, smpValid, Option.isSome_iff_ne_none]

/-- Settles O18: the handshake outputs by their two conditions, the fault output by the code of each fault. -/
theorem outputsFollowTheState : Obligations.OutputsFollowTheState := fun rst s =>
  ⟨outputs_cmdReady_iff rst s, outputs_smpValid_iff rst s, fun h => by simp [outputs, h],
    fun hs hf => Bool.eq_false_iff.mpr fun h => ((outputs_smpValid_iff rst s).mp h).2 (hs.halted_silent hf),
    faultBits_eq_iff s.fault .none, faultBits_eq_iff s.fault .illegalCmd, faultBits_eq_iff s.fault .freqDomain,
    faultBits_ne_three s.fault⟩

/-- R27, R67: a presented word that spells a command is taken off the owner's list and executed. -/
theorem step_of_presented_command {s : State} {m : Moment} {ms : List Moment} {w : ℕ} {ws : List ℕ} {i : Instr}
    (henv : s.env = m :: ms) (hrst : m.rst = false) (hvalid : m.cmdValid = true) (hready : cmdReady s = true)
    (hw : s.cmds = w :: ws) (hd : decode w = .command i) : step s = exec i { s with cmds := ws, env := ms } :=
  calc step s = playMoment m { s with env := ms } := step_moment henv
    _ = acceptWord w { s with env := ms, cmds := ws } := playMoment_accept hrst hvalid hready hw
    _ = exec i { s with cmds := ws, env := ms } := acceptWord_command hd _

theorem decode_of_decodeTableWord {nbits n : ℕ} {i : Instr} (h : decodeTableWord nbits n = some i) :
    decode (tableWord nbits n) = .command i := by
  unfold decodeTableWord at h
  split at h
  · cases hd : decode (tableWord nbits n) with
    | command j => simpa [hd] using h
    | illegal why => simp [hd] at h
  · cases h

/-- Settles O19: a word placed by `withFetchWord` stands first in the owner's list and is presented at the next moment; with
both used up the state is the one it was placed in. -/
theorem stepExecutesTheDecodedCommand : Obligations.StepExecutesTheDecodedCommand :=
  ⟨fun _ _ _ _ _ _ henv hrst hvalid hready hw hd => step_of_presented_command henv hrst hvalid hready hw hd,
    fun s nbits n _ hready hd =>
      step_of_presented_command (s := s.withFetchWord nbits n) rfl rfl rfl hready rfl (decode_of_decodeTableWord hd)⟩

end Sys2Proof.Machine
end

section
/-! Proofs of the statements on the encoding (30_encoding.md): the decoder row by row of the opcode table (R45 to R48), the
words of the commands (R49), that decoding and encoding are inverse to each other, and the count of the valid words (R47). -/

namespace Sys2Proof

/-! ### The decoder, one equation per opcode, in numbers (R40, R48) -/

theorem reservedField_argField (w : ℕ) : reservedField (argField w) = w / 16 := Nat.div_div_eq_div_mul w 4 4

theorem decode_of_op_zero {w : ℕ} (h : w % 4 = 0) :
    decode w = if w / 4 = 0 then .command .nextSample else .illegal .nextSampleOperand := by
  simp [decode, opField_eq_iff, argField, h]

theorem decode_of_op_one {w : ℕ} (h : w % 4 = 1) :
    decode w = if w / 16 = 0 then .command (.setWaveform (waveformOfCode (waveformField (argField w))))
      else .illegal .waveformReservedBits := by
  simp [decode, opField_eq_iff, reservedField_argField, h]

theorem decode_of_op_two {w : ℕ} (h : w % 4 = 2) : decode w = .command (.setFrequency (w / 4)) := by
  simp [decode, opField_eq_iff, argField, h]

theorem decode_of_op_three {w : ℕ} (h : w % 4 = 3) : decode w = .illegal .reservedOpcode := by
  simp [decode, opField_eq_iff, h]

theorem op_cases (w : ℕ) : w % 4 = 0 ∨ w % 4 = 1 ∨ w % 4 = 2 ∨ w % 4 = 3 := by omega

/-- Settles O3, opcode by opcode: each of the three disjuncts speaks of one opcode, and no word with `op = 2` is illegal. -/
theorem illegalWordsAreThese : Obligations.IllegalWordsAreThese := by
  intro w
  obtain h | h | h | h := op_cases w
  · by_cases harg : w / 4 = 0 <;> simp [decode_of_op_zero h, h, harg]
  · by_cases hrsv : w / 16 = 0 <;> simp [decode_of_op_one h, h, hrsv]
  · simp [decode_of_op_two h, h]
  · simp [decode_of_op_three h, h]

/-! ### The words of the commands (R49) -/

@[simp] theorem encode_nextSample : encode .nextSample = 0 := rfl

@[simp] theorem encode_setWaveform (v : Waveform) : encode (.setWaveform v) = (waveformCode v).toNat * 4 + 1 := rfl

@[simp] theorem encode_setFrequency (arg : ℕ) : encode (.setFrequency arg) = arg * 4 + 2 := rfl

/-- `wellFormed` is a demand on the operand of `set_frequency` alone, so no bound on `FW` is asked here. -/
theorem wellFormed_of_encode_lt {fw : ℕ} {i : Instr} (h : encode i < 2 ^ commandWidth fw) : wellFormed fw i = true := by
  cases i with
  | nextSample => rfl
  | setWaveform v => rfl
  | setFrequency arg =>
    rw [encode_setFrequency, commandWidth, pow_add] at h
    exact decide_eq_true (by omega)

/-- The word of a well-formed command has `CW` bits: with `FW >= 2` the two bits of a waveform have room (R39). -/
theorem encode_lt_of_wellFormed {fw : ℕ} (hf : 2 ≤ fw) {i : Instr} (h : wellFormed fw i = true) :
    encode i < 2 ^ commandWidth fw := by
  rw [commandWidth, pow_add]
  cases i with
  | nextSample => simp
  | setWaveform v =>
    have hroom : 2 ^ 2 ≤ 2 ^ fw := Nat.pow_le_pow_right two_pos hf
    have hcode := (waveformCode v).isLt
    rw [encode_setWaveform]
    omega
  | setFrequency arg =>
    have harg : arg < 2 ^ fw := of_decide_eq_true h
    rw [encode_setFrequency]
    omega

/-! ### Decoding and encoding are inverse to each other (R49) -/

theorem decode_encode (i : Instr) : decode (encode i) = .command i := by
  cases i with
  | nextSample => rfl
  | setWaveform v => cases v <;> rfl
  | setFrequency arg =>
    have hop : (arg * 4 + 2) % 4 = 2 := by omega
    have harg : (arg * 4 + 2) / 4 = arg := by omega
    rw [encode_setFrequency, decode_of_op_two hop, harg]

/-- The two bits a `set_waveform` word spells its waveform with are put back by the encoder: none of them is dropped (R42). -/
theorem code_of_decoded_waveform (w : ℕ) :
    (waveformCode (waveformOfCode (waveformField (argField w)))).toNat = w / 4 % 4 := by
  rw [code_waveformOfCode, waveformField_toNat, argField]

theorem encode_of_decode {w : ℕ} {i : Instr} (h : decode w = .command i) : encode i = w := by
  obtain hop | hop | hop | hop := op_cases w
  · rw [decode_of_op_zero hop] at h
    split at h
    · cases h
      rw [encode_nextSample]
      omega
    · cases h
  · rw [decode_of_op_one hop] at h
    split at h
    · cases h
      rw [encode_setWaveform, code_of_decoded_waveform]
      omega
    · cases h
  · rw [decode_of_op_two hop] at h
    cases h
    rw [encode_setFrequency]
    omega
  · rw [decode_of_op_three hop] at h
    cases h

/-- Every command has exactly one word, whatever the width. -/
theorem decode_eq_command_iff {w : ℕ} {i : Instr} : decode w = .command i ↔ encode i = w :=
  ⟨encode_of_decode, fun h => h ▸ decode_encode i⟩

theorem encode_injective : Function.Injective encode := fun i j h =>
  Decoded.command.inj (by rw [← decode_encode i, h, decode_encode j])

/-- Settles O1: the round trip needs no bound on the operand; the word of a well-formed command has `CW` bits. -/
theorem decodeGivesBackEncodedCommand : Obligations.DecodeGivesBackEncodedCommand :=
  ⟨fun _ i hf hwf => ⟨decode_encode i, encode_lt_of_wellFormed hf hwf⟩,
    encode_nextSample, rfl, rfl, rfl, rfl, encode_setFrequency⟩

/-- Settles O2: the word is the command's encoding, and it has `CW` bits. -/
theorem decodedWordIsTheEncoding : Obligations.DecodedWordIsTheEncoding := fun _ _ _ hw hd =>
  ⟨wellFormed_of_encode_lt ((encode_of_decode hd).trans_lt hw), encode_of_decode hd⟩

/-! ### The count of the valid words (R47) -/

/-- The words of one kind of command are as many as the operands that make a well-formed command of it. -/
theorem ncard_words_eq_ncard_operands {α : Type} {fw : ℕ} (hf : 2 ≤ fw) {kind : α → Instr} (hk : Function.Injective kind) :
    Set.ncard { w : ℕ | w < 2 ^ commandWidth fw ∧ ∃ a, decode w = .command (kind a) } =
      Set.ncard { a | wellFormed fw (kind a) = true } := by
  rw [← Set.ncard_image_of_injective _ (encode_injective.comp hk)]
  congr 1
  ext w
  simp only [decode_eq_command_iff, Set.mem_ofPred_eq, Set.mem_image, Function.comp_apply]
  constructor
  · rintro ⟨hw, a, rfl⟩
    exact ⟨a, wellFormed_of_encode_lt hw, rfl⟩
  · rintro ⟨a, ha, rfl⟩
    exact ⟨encode_lt_of_wellFormed hf ha, a, rfl⟩

/-- `next_sample` has no operand. -/
theorem ncard_nextSample_words (fw : ℕ) :
    Set.ncard { w : ℕ | w < 2 ^ commandWidth fw ∧ decode w = .command .nextSample } = 1 := by
  refine Set.ncard_eq_one.mpr ⟨0, Set.ext fun w => ?_⟩
  simp only [decode_eq_command_iff, encode_nextSample, Set.mem_ofPred_eq, Set.mem_singleton_iff]
  exact ⟨fun h => h.2.symm, fun h => ⟨h ▸ Nat.two_pow_pos _, h.symm⟩⟩

/-- R42: the enumeration of the waveforms is closed. -/
theorem ncard_waveforms : Set.ncard (Set.univ : Set Waveform) = 4 := by
  have hall : (Set.univ : Set Waveform) = (↑({.sine, .square, .saw, .triangle} : Finset Waveform) : Set Waveform) := by
    ext v
    cases v <;> simp
  rw [hall, Set.ncard_coe_finset]
  rfl

theorem ncard_setWaveform_words {fw : ℕ} (hf : 2 ≤ fw) :
    Set.ncard { w : ℕ | w < 2 ^ commandWidth fw ∧ ∃ v, decode w = .command (.setWaveform v) } = 4 := by
  rw [ncard_words_eq_ncard_operands hf fun _ _ => Instr.setWaveform.inj]
  simpa [wellFormed] using ncard_waveforms

theorem ncard_setFrequency_words {fw : ℕ} (hf : 2 ≤ fw) :
    Set.ncard { w : ℕ | w < 2 ^ commandWidth fw ∧ ∃ arg, decode w = .command (.setFrequency arg) } = 2 ^ fw := by
  rw [ncard_words_eq_ncard_operands hf fun _ _ => Instr.setFrequency.inj]
  calc Set.ncard { arg | wellFormed fw (.setFrequency arg) = true }
      = Set.ncard (Set.Iio (2 ^ fw)) := by simp [wellFormed, Set.Iio_def]
    _ = 2 ^ fw := Set.ncard_Iio_nat _

theorem decode_total (w : ℕ) :
    decode w = .command .nextSample ∨ (∃ v, decode w = .command (.setWaveform v)) ∨
      (∃ arg, decode w = .command (.setFrequency arg)) ∨ ∃ why, decode w = .illegal why := by
  cases decode w with
  | illegal why => exact .inr (.inr (.inr ⟨why, rfl⟩))
  | command i =>
    cases i with
    | nextSample => exact .inl rfl
    | setWaveform v => exact .inr (.inl ⟨v, rfl⟩)
    | setFrequency arg => exact .inr (.inr (.inl ⟨arg, rfl⟩))

/-- Settles O4: the counts for every `FW`, and at `FW = 32`, where `CW = 34`. -/
theorem countOfValidWords : Obligations.CountOfValidWords :=
  have h32 : 2 ≤ 32 := by decide
  ⟨fun fw hf => ⟨ncard_nextSample_words fw, ncard_setWaveform_words hf, ncard_setFrequency_words hf⟩,
    ncard_nextSample_words 32, ncard_setWaveform_words h32, ncard_setFrequency_words h32, decode_total⟩

/-! ### Words written out -/

/-- Settles O5: the valid words are the encodings of their commands, the illegal ones are read by their opcode. -/
theorem writtenWordsDecode : Obligations.WrittenWordsDecode :=
  ⟨decode_eq_command_iff.mpr rfl, decode_eq_command_iff.mpr rfl, decode_eq_command_iff.mpr rfl,
    decode_eq_command_iff.mpr rfl, decode_of_op_three rfl, decode_of_op_zero rfl, decode_of_op_one rfl⟩

end Sys2Proof
end

section
/-! Proofs of the statements on the waveform synthesis (40_waveform_synthesis.md): the harmonics counted and listed (R53, R54),
the loop and the exact recipe (R59, R66), the waveforms as combinations of harmonics (R55 to R58) with their range and their
periods (R63, R64), the frequencies near, at and above Nyquist (R53, R60, R103), and the sample `next_sample` emits (R66). -/

namespace Sys2Proof

/-! ### The harmonics of the sums, counted and listed (R54) -/

theorem allHarmonics_eq_image (f : Freq) (sr : ℕ) :
    allHarmonics f sr = (Finset.range (kAll f sr)).image (fun i => 1 + 1 * i) := by
  ext k
  rw [mem_allHarmonics, Finset.mem_image]
  constructor
  · intro hk
    exact ⟨k - 1, Finset.mem_range.mpr (by omega), by omega⟩
  · rintro ⟨i, hi, rfl⟩
    have := Finset.mem_range.mp hi
    omega

theorem oddHarmonics_eq_image (f : Freq) (sr : ℕ) :
    oddHarmonics f sr = (Finset.range (kOdd f sr)).image (fun i => 1 + 2 * i) := by
  ext k
  rw [mem_oddHarmonics, Finset.mem_image]
  unfold kOdd
  constructor
  · intro hk
    exact ⟨k / 2, Finset.mem_range.mpr (by omega), by omega⟩
  · rintro ⟨i, hi, rfl⟩
    have := Finset.mem_range.mp hi
    omega

theorem one_add_stride_mul_injective {stride : ℕ} (h : 0 < stride) : Function.Injective (fun i => 1 + stride * i) :=
  (add_right_injective 1).comp (mul_right_injective₀ h.ne')

theorem sum_allHarmonics (f : Freq) (sr : ℕ) (g : ℕ → ℝ) :
    ∑ k ∈ allHarmonics f sr, g k = ∑ i ∈ Finset.range (kAll f sr), g (1 + 1 * i) := by
  rw [allHarmonics_eq_image, Finset.sum_image (one_add_stride_mul_injective one_pos).injOn]

theorem sum_oddHarmonics (f : Freq) (sr : ℕ) (g : ℕ → ℝ) :
    ∑ k ∈ oddHarmonics f sr, g k = ∑ i ∈ Finset.range (kOdd f sr), g (1 + 2 * i) := by
  rw [oddHarmonics_eq_image, Finset.sum_image (one_add_stride_mul_injective two_pos).injOn]

theorem card_allHarmonics (f : Freq) (sr : ℕ) : (allHarmonics f sr).card = kAll f sr := by
  simp [allHarmonics]

theorem card_oddHarmonics (f : Freq) (sr : ℕ) : (oddHarmonics f sr).card = kOdd f sr := by
  rw [oddHarmonics_eq_image, Finset.card_image_of_injective _ (one_add_stride_mul_injective two_pos), Finset.card_range]

/-- R54 writes `K_odd` with a ceiling; a whole number is an upper bound of `K_all / 2` and of `(K_all + 1) / 2` alike. -/
theorem kOdd_eq_ceil (f : Freq) (sr : ℕ) : kOdd f sr = ⌈(kAll f sr : ℝ) / 2⌉₊ := by
  refine eq_of_forall_ge_iff fun n => ?_
  calc kOdd f sr ≤ n
      ↔ kAll f sr ≤ n * 2 := by unfold kOdd; omega
    _ ↔ (kAll f sr : ℝ) ≤ n * 2 := by exact_mod_cast Iff.rfl
    _ ↔ ⌈(kAll f sr : ℝ) / 2⌉₊ ≤ n := by rw [Nat.ceil_le, div_le_iff₀ two_pos]

/-- Settles O41: membership is `le_kAll_iff_included`, and the counts are those of the listed harmonics. -/
theorem harmonicCounts : Obligations.HarmonicCounts := fun f sr =>
  ⟨fun _ hk => le_kAll_iff_included hk, card_allHarmonics f sr, card_oddHarmonics f sr, kOdd_eq_ceil f sr,
    kAll_eq_zero_iff⟩

/-! ### The loop and the exact recipe (R59, R66) -/

/-- A loop whose test succeeds in exactly `n` turns adds `n` terms, whatever fuel is left over. -/
theorem additiveLoop_eq_sum {f : Freq} {sr stride : ℕ} (coef : ℕ → ℝ) (p : ℝ) {n fuel k : ℕ} (acc : ℝ)
    (htest : ∀ i, Included f (k + stride * i) sr ↔ i < n) (hfuel : n ≤ fuel) :
    additiveLoop stride coef f sr p fuel k acc =
      acc + ∑ i ∈ Finset.range n, coef (k + stride * i) * harm f (k + stride * i) sr p := by
  induction n generalizing fuel k acc with
  | zero =>
    have hstop : ¬ Included f k sr := by simpa using htest 0
    rw [additiveLoop_excluded hstop, Finset.sum_range_zero, add_zero]
  | succ n ih =>
    obtain ⟨fuel, rfl⟩ : ∃ m, fuel = m + 1 := Nat.exists_eq_add_one.mpr (by omega)
    have hgo : Included f k sr := by simpa using htest 0
    have hshift (i : ℕ) : k + stride + stride * i = k + stride * (i + 1) := by ring
    have hrest (i : ℕ) : Included f (k + stride + stride * i) sr ↔ i < n := by
      rw [hshift, htest, Nat.add_lt_add_iff_right]
    rw [additiveLoop_included hgo, ih _ hrest (by omega), Finset.sum_range_succ']
    simp only [hshift, mul_zero, add_zero]
    ring

section Fuel

variable {f : Freq} {sr fuel : ℕ} (hfuel : ⌈(sr : ℝ) / (2 * (f : ℝ))⌉₊ ≤ fuel)
include hfuel

theorem additiveLoop_one_eq_sum (coef : ℕ → ℝ) (p : ℝ) :
    additiveLoop 1 coef f sr p fuel 1 0 = ∑ k ∈ allHarmonics f sr, coef k * harm f k sr p := by
  have htest (i : ℕ) : Included f (1 + 1 * i) sr ↔ i < kAll f sr := by
    rw [← le_kAll_iff_included (by omega)]
    omega
  have hturns : kAll f sr ≤ fuel := (Nat.sub_le _ 1).trans hfuel
  rw [additiveLoop_eq_sum coef p 0 htest hturns, zero_add, sum_allHarmonics]

theorem additiveLoop_two_eq_sum (coef : ℕ → ℝ) (p : ℝ) :
    additiveLoop 2 coef f sr p fuel 1 0 = ∑ k ∈ oddHarmonics f sr, coef k * harm f k sr p := by
  have htest (i : ℕ) : Included f (1 + 2 * i) sr ↔ i < kOdd f sr := by
    rw [← le_kAll_iff_included (by omega), kOdd]
    omega
  have hturns : kOdd f sr ≤ fuel := by
    have : kAll f sr ≤ fuel := (Nat.sub_le _ 1).trans hfuel
    rw [kOdd]
    omega
  rw [additiveLoop_eq_sum coef p 0 htest hturns, zero_add, sum_oddHarmonics]

end Fuel

/-- Settles O42: the turns whose test succeeds are the harmonics of the sum, and the fuel is enough for them. -/
theorem loopComputesTheSums : Obligations.LoopComputesTheSums := fun _ _ p _ hfuel =>
  ⟨additiveLoop_two_eq_sum hfuel coefRecip p, additiveLoop_one_eq_sum hfuel coefRecip p,
    additiveLoop_two_eq_sum hfuel coefRecipSq p⟩

theorem refRecip_realOps : refRecip realOps = coefRecip := by
  funext k
  simp [refRecip, realOps, coefRecip]

theorem refRecipSq_realOps : refRecipSq realOps = coefRecipSq := by
  funext k
  simp [refRecipSq, realOps, coefRecipSq]

theorem refSine_realOps (sr p : ℕ) (g : ℝ) : refSine realOps sr p g = Real.sin (p * g * 2 * Real.pi / sr) :=
  congrArg (fun a => Real.sin (a / sr)) (mul_assoc (p * g) 2 Real.pi).symm

/-- Turn by turn the recipe's loop over exact operations is the loop of R59. -/
theorem refLoop_realOps (stride : ℕ) (coef : ℕ → ℝ) (f : Freq) (sr p fuel k : ℕ) (acc : ℝ) :
    refLoop realOps stride coef f sr p fuel k acc = additiveLoop stride coef f sr p fuel k acc := by
  induction fuel generalizing k acc with
  | zero => rfl
  | succ fuel ih =>
    have hterm : refSine realOps sr p ((f : ℝ) * k) = harm f k sr p := refSine_realOps sr p _
    simp only [refLoop, additiveLoop, ih]
    simp [realOps, ← hterm]

/-- Settles O51: with nothing rounded the recipe is the loop, which computes the sums. -/
theorem exactRecipeIsIdeal : Obligations.ExactRecipeIsIdeal := by
  intro w f sr p fuel hfuel
  obtain ⟨hsquare, hsaw, htriangle⟩ := loopComputesTheSums f sr p fuel hfuel
  cases w with
  | sine => exact refSine_realOps sr p f
  | square => exact (refLoop_realOps 2 _ f sr p fuel 1 0).trans (refRecip_realOps ▸ hsquare)
  | saw => exact (refLoop_realOps 1 _ f sr p fuel 1 0).trans (refRecip_realOps ▸ hsaw)
  | triangle => exact (refLoop_realOps 2 _ f sr p fuel 1 0).trans (refRecipSq_realOps ▸ htriangle)

/-! ### Periods and oddness in the phase (R64) -/

/-- Every waveform, Sine included, combines harmonics with coefficients that do not depend on the phase. -/
theorem synthIdeal_eq_sum_harm (w : Waveform) (f : Freq) (sr : ℕ) :
    ∃ (ks : Finset ℕ) (coef : ℕ → ℝ), ∀ p, synthIdeal w f sr p = ∑ k ∈ ks, coef k * harm f k sr p := by
  cases w with
  | sine => exact ⟨{1}, fun _ => 1, fun p => by simp [synthIdeal, harm_one]⟩
  | square => exact ⟨oddHarmonics f sr, coefRecip, fun _ => rfl⟩
  | saw => exact ⟨allHarmonics f sr, coefRecip, fun _ => rfl⟩
  | triangle => exact ⟨oddHarmonics f sr, coefRecipSq, fun _ => rfl⟩

theorem synthIdeal_congr (w : Waveform) {f : Freq} {sr : ℕ} {p q : ℝ} (h : ∀ k, harm f k sr p = harm f k sr q) :
    synthIdeal w f sr p = synthIdeal w f sr q := by
  obtain ⟨ks, coef, hsum⟩ := synthIdeal_eq_sum_harm w f sr
  simp only [hsum, h]

theorem harm_neg (f : Freq) (k sr : ℕ) (p : ℝ) : harm f k sr (-p) = - harm f k sr p := by
  simp only [harm, ← Real.sin_neg]
  congr 1
  ring

theorem synthIdeal_neg (w : Waveform) (f : Freq) (sr : ℕ) (p : ℝ) :
    synthIdeal w f sr (-p) = - synthIdeal w f sr p := by
  obtain ⟨ks, coef, hsum⟩ := synthIdeal_eq_sum_harm w f sr
  simp only [hsum, harm_neg, mul_neg, Finset.sum_neg_distrib]

/-- A change of the phase that adds `m` turns to the angle of harmonic `k` leaves it as it is. -/
theorem harm_add_of_turns {f : Freq} {k sr m : ℕ} {d : ℝ} (p : ℝ) (h : d * ((f : ℝ) * k) = m * sr) (hsr : 1 ≤ sr) :
    harm f k sr (p + d) = harm f k sr p := by
  have hsr0 : (sr : ℝ) ≠ 0 := Nat.cast_ne_zero.mpr (by omega)
  have hangle : (p + d) * ((f : ℝ) * k) * 2 * Real.pi / sr =
      p * ((f : ℝ) * k) * 2 * Real.pi / sr + m * (2 * Real.pi) := by
    field_simp
    linear_combination h
  rw [harm, hangle, Real.sin_add_nat_mul_two_pi, harm]

/-- Settles O46: `sr / f` adds `k` turns to harmonic `k`, and `sr` adds `n · k` turns where `f` is the integer `n`. -/
theorem periodicityInPhase : Obligations.PeriodicityInPhase := by
  intro w f sr p hsr
  have hf : (f : ℝ) ≠ 0 := f.property.ne'
  refine ⟨synthIdeal_congr w fun k => harm_add_of_turns (m := k) p ?_ hsr, synthIdeal_at_zero w f sr,
    synthIdeal_neg w f sr p, fun n hn => synthIdeal_congr w fun k => harm_add_of_turns (m := n * k) p ?_ hsr⟩
  · field_simp
  · rw [hn]
    push_cast
    ring

/-! ### Ranges (R63) -/

theorem abs_sum_harm_le {coef : ℕ → ℝ} (hcoef : ∀ k, 0 ≤ coef k) (ks : Finset ℕ) (f : Freq) (sr : ℕ) (p : ℝ) :
    |∑ k ∈ ks, coef k * harm f k sr p| ≤ ∑ k ∈ ks, coef k := by
  refine (Finset.abs_sum_le_sum_abs _ _).trans (Finset.sum_le_sum fun k _ => ?_)
  rw [abs_mul, abs_of_nonneg (hcoef k)]
  exact mul_le_of_le_one_right (hcoef k) (abs_harm_le_one f k sr p)

theorem coefRecipSq_two_mul (k : ℕ) : coefRecipSq (2 * k) = 1 / 4 * coefRecipSq k := by
  simp only [coefRecipSq]
  push_cast
  ring

/-- Over the odd numbers: three quarters of `π² / 6`, since the even ones make one quarter of the whole. -/
theorem hasSum_coefRecipSq_odd : HasSum (fun i : ℕ => coefRecipSq (1 + 2 * i)) (Real.pi ^ 2 / 8) := by
  have hpow : (fun k : ℕ => 1 / (k : ℝ) ^ 2) = coefRecipSq := funext fun k => by rw [coefRecipSq, pow_two]
  have hall : HasSum coefRecipSq (Real.pi ^ 2 / 6) := hpow ▸ hasSum_zeta_two
  have heven : HasSum (fun i => coefRecipSq (2 * i)) (1 / 4 * (Real.pi ^ 2 / 6)) := by
    simpa only [coefRecipSq_two_mul] using hall.mul_left (1 / 4)
  have hodd : Summable (fun i => coefRecipSq (2 * i + 1)) :=
    hall.summable.comp_injective ((add_left_injective 1).comp (mul_right_injective₀ two_ne_zero))
  have htotal := hall.unique (heven.even_add_odd hodd.hasSum)
  simp only [add_comm 1]
  exact (show ∑' i, coefRecipSq (2 * i + 1) = Real.pi ^ 2 / 8 by linarith) ▸ hodd.hasSum

theorem sum_coefRecipSq_oddHarmonics_lt (f : Freq) (sr : ℕ) :
    ∑ k ∈ oddHarmonics f sr, coefRecipSq k < Real.pi ^ 2 / 8 := by
  have hnext : 0 < coefRecipSq (1 + 2 * kOdd f sr) := by
    unfold coefRecipSq
    positivity
  calc ∑ k ∈ oddHarmonics f sr, coefRecipSq k
      = ∑ i ∈ Finset.range (kOdd f sr), coefRecipSq (1 + 2 * i) := sum_oddHarmonics f sr coefRecipSq
    _ < ∑ i ∈ Finset.range (kOdd f sr + 1), coefRecipSq (1 + 2 * i) := by
      rw [Finset.sum_range_succ]
      exact lt_add_of_pos_right _ hnext
    _ ≤ Real.pi ^ 2 / 8 := sum_le_hasSum _ (fun _ _ => coefRecipSq_nonneg _) hasSum_coefRecipSq_odd

/-- Settles O47: no harmonic exceeds 1 and no coefficient is negative. -/
theorem rangeBounds : Obligations.RangeBounds := fun f sr p =>
  ⟨harm_one f sr p ▸ abs_harm_le_one f 1 sr p, abs_sum_harm_le coefRecip_nonneg _ f sr p,
    abs_sum_harm_le coefRecip_nonneg _ f sr p, abs_sum_harm_le coefRecipSq_nonneg _ f sr p,
    sum_coefRecipSq_oddHarmonics_lt f sr⟩

/-! ### Near, at and above Nyquist (R53, R55 to R58, R60, R103) -/

/-- Settles O44: the test is strict, and the angle of the boundary harmonic is `p · π`. -/
theorem boundaryHarmonicIsZero : Obligations.BoundaryHarmonicIsZero := by
  intro f k sr p hsr hboundary
  have hsr0 : (sr : ℝ) ≠ 0 := Nat.cast_ne_zero.mpr (by omega)
  have hangle : (p : ℝ) * ((f : ℝ) * k) * 2 * Real.pi / sr = p * Real.pi := by
    rw [hboundary]
    field_simp
  exact ⟨hboundary.not_lt, by rw [harm, hangle, Real.sin_nat_mul_pi]⟩

theorem oddHarmonics_eq_singleton {f : Freq} {sr : ℕ} (h1 : Included f 1 sr) (h3 : ¬ Included f 3 sr) :
    oddHarmonics f sr = {1} := by
  rw [← le_kAll_iff_included (by omega)] at h1 h3
  ext k
  rw [mem_oddHarmonics, Finset.mem_singleton]
  omega

theorem allHarmonics_eq_singleton {f : Freq} {sr : ℕ} (h1 : Included f 1 sr) (h2 : ¬ Included f 2 sr) :
    allHarmonics f sr = {1} := by
  rw [← le_kAll_iff_included (by omega)] at h1 h2
  ext k
  rw [mem_allHarmonics, Finset.mem_singleton]
  omega

/-- Settles O45: the fundamental is included, and the next harmonic of the sum is not. -/
theorem singleHarmonicEqualsSine : Obligations.SingleHarmonicEqualsSine := by
  intro f sr p hf
  have h1 : Included f 1 sr := by simpa [Included] using hf
  refine ⟨fun hlow => ?_, fun hlow => ?_⟩
  · have h3 : ¬ Included f 3 sr := by
      unfold Included
      push_cast
      linarith
    simp [squareIdeal, triangleIdeal, oddHarmonics_eq_singleton h1 h3, coefRecip, coefRecipSq, harm_one]
  · have h2 : ¬ Included f 2 sr := by
      unfold Included
      push_cast
      linarith
    simp [sawIdeal, allHarmonics_eq_singleton h1 h2, coefRecip, harm_one]

section Folding

variable {f : Freq} {sr : ℕ} (hsr : 1 ≤ sr) (p : ℕ)
include hsr

theorem sineIdeal_of_lt_rate (h : (f : ℝ) < sr) : sineIdeal f sr p = - sineIdeal ⟨sr - f, sub_pos.mpr h⟩ sr p := by
  have hsr0 : (sr : ℝ) ≠ 0 := Nat.cast_ne_zero.mpr (by omega)
  have hangle : (p : ℝ) * (sr - (f : ℝ)) * 2 * Real.pi / sr =
      p * (2 * Real.pi) - p * (f : ℝ) * 2 * Real.pi / sr := by
    field_simp
  simp only [sineIdeal, hangle, Real.sin_nat_mul_two_pi_sub, neg_neg]

theorem sineIdeal_of_rate_lt (h : (sr : ℝ) < f) : sineIdeal f sr p = sineIdeal ⟨f - sr, sub_pos.mpr h⟩ sr p := by
  have hsr0 : (sr : ℝ) ≠ 0 := Nat.cast_ne_zero.mpr (by omega)
  have hangle : (p : ℝ) * ((f : ℝ) - sr) * 2 * Real.pi / sr =
      p * (f : ℝ) * 2 * Real.pi / sr - p * (2 * Real.pi) := by
    field_simp
  simp only [sineIdeal, hangle, Real.sin_sub_nat_mul_two_pi]

theorem sineIdeal_of_eq_rate (h : (f : ℝ) = sr) : sineIdeal f sr p = 0 := by
  have hsr0 : (sr : ℝ) ≠ 0 := Nat.cast_ne_zero.mpr (by omega)
  have hangle : (p : ℝ) * (f : ℝ) * 2 * Real.pi / sr = (p * 2 : ℕ) * Real.pi := by
    rw [h]
    push_cast
    field_simp
  rw [sineIdeal, hangle, Real.sin_nat_mul_pi]

end Folding

/-- Settles O43: above Nyquist the three sums are empty; the angle of Sine differs from that of the folded frequency by `p`
whole turns. -/
theorem idealAtAndAboveNyquist : Obligations.IdealAtAndAboveNyquist := fun f sr hsr hf =>
  ⟨fun p => ⟨synthIdeal_eq_zero_of_nyquist_le (w := .square) (by decide) hf p,
      synthIdeal_eq_zero_of_nyquist_le (w := .saw) (by decide) hf p,
      synthIdeal_eq_zero_of_nyquist_le (w := .triangle) (by decide) hf p⟩,
    fun p => ⟨sineIdeal_of_lt_rate hsr p, sineIdeal_of_eq_rate hsr p, sineIdeal_of_rate_lt hsr p⟩⟩

/-! ### Worked examples (R55, R56, R58) -/

/-- A quarter of a period into the wave, the odd harmonics stand at their peaks, up and down in turn. -/
theorem harm_quarter_period (i : ℕ) : harm ⟨1, one_pos⟩ (1 + 2 * i) 16 4 = (-1) ^ i := by
  have hangle : (4 : ℝ) * (1 * ((1 + 2 * i : ℕ) : ℝ)) * 2 * Real.pi / (16 : ℕ) = Real.pi / 2 + i * Real.pi := by
    push_cast
    ring
  rw [harm, hangle, Real.sin_add_nat_mul_pi, Real.sin_pi_div_two, mul_one]

theorem sum_oddHarmonics_quarter_period (coef : ℕ → ℝ) :
    ∑ k ∈ oddHarmonics ⟨1, one_pos⟩ 16, coef k * harm ⟨1, one_pos⟩ k 16 4 = coef 1 - coef 3 + coef 5 - coef 7 := by
  have hk : kOdd ⟨1, one_pos⟩ 16 = 4 := by norm_num [kOdd, kAll]
  simp only [sum_oddHarmonics, hk, harm_quarter_period, Finset.sum_range_succ, Finset.sum_range_zero]
  ring

/-- An eighth of a period into the wave, harmonic `k` stands at the angle `k · π / 4`. -/
theorem harm_eighth_period (k : ℕ) : harm ⟨2, two_pos⟩ k 16 1 = Real.sin (k * (Real.pi / 4)) := by
  rw [harm]
  congr 1
  push_cast
  ring

theorem sin_three_mul_pi_div_four : Real.sin (3 * (Real.pi / 4)) = Real.sqrt 2 / 2 := by
  rw [show 3 * (Real.pi / 4) = Real.pi - Real.pi / 4 by ring, Real.sin_pi_sub, Real.sin_pi_div_four]

theorem sawIdeal_eighth_period : sawIdeal ⟨2, two_pos⟩ 16 1 = 1 / 2 + 2 * Real.sqrt 2 / 3 := by
  have hk : kAll ⟨2, two_pos⟩ 16 = 3 := by norm_num [kAll]
  have hsum : sawIdeal ⟨2, two_pos⟩ 16 1 = Real.sin (Real.pi / 4) +
      1 / 2 * Real.sin (2 * (Real.pi / 4)) + 1 / 3 * Real.sin (3 * (Real.pi / 4)) := by
    norm_num [sawIdeal, sum_allHarmonics, hk, harm_eighth_period, coefRecip, Finset.sum_range_succ]
  have hpeak : Real.sin (2 * (Real.pi / 4)) = 1 := by
    rw [show 2 * (Real.pi / 4) = Real.pi / 2 by ring, Real.sin_pi_div_two]
  rw [hsum, hpeak, sin_three_mul_pi_div_four, Real.sin_pi_div_four]
  ring

theorem one_lt_sawIdeal_eighth_period : 1 < sawIdeal ⟨2, two_pos⟩ 16 1 := by
  have hsqrt : 1 < Real.sqrt 2 := Real.lt_sqrt_of_sq_lt (by norm_num)
  rw [sawIdeal_eighth_period]
  linarith

/-- Settles O48: the two sums over odd harmonics alternate, and the other two samples lie at multiples of `π / 4`. -/
theorem workedExamples : Obligations.WorkedExamples := by
  refine ⟨?_, (sum_oddHarmonics_quarter_period coefRecip).trans ?_,
    (sum_oddHarmonics_quarter_period coefRecipSq).trans ?_, sawIdeal_eighth_period, one_lt_sawIdeal_eighth_period⟩
  · have hangle : (1 : ℝ) * 1 * 2 * Real.pi / (8 : ℕ) = Real.pi / 4 := by
      push_cast
      ring
    rw [sineIdeal, hangle, Real.sin_pi_div_four]
  · norm_num [coefRecip]
  · norm_num [coefRecipSq]

end Sys2Proof

namespace Sys2Proof.Machine

/-! ### The emitted sample (R60, R66) -/

/-- R69 as a remainder, on a legal phase. -/
theorem advance_eq_mod {sr p : ℕ} (h : p < sr) : advance sr p = (p + 1) % sr := by
  by_cases hwrap : p + 1 < sr
  · rw [advance_of_lt hwrap, Nat.mod_eq_of_lt hwrap]
  · rw [advance_of_not_lt hwrap, show p + 1 = sr by omega, Nat.mod_self]

/-- The invariant puts the new phase where R66 speaks of SYNTH, below the rate of the configuration. -/
theorem advance_lt_params_rate {s : State} (hs : Invariant s) : advance s.sampleRate s.phaseIndex < params.sampleRate :=
  hs.rate ▸ advance_lt (Nat.zero_lt_of_lt hs.phase_lt) s.phaseIndex

/-- Settles O39: R66 (a), at the new phase of the invariant's rate. -/
theorem emittedSampleIsClose : Obligations.EmittedSampleIsClose := by
  intro s x h hs hready hx
  obtain ⟨y, hy, hclose⟩ :=
    params_wf.num_conforms.close s.waveform s.frequencyHz x _ h hx (advance_lt_params_rate hs)
  rw [← hs.rate] at hy
  exact ⟨_, _, y, exec_nextSample_of_inDomain hready ⟨x, hx, h⟩, rfl, hy, hclose⟩

/-- Settles O40: a rate of at least 1 puts Nyquist in the domain, and R66 (b) makes the sample `ZERO`. -/
theorem silenceAtAndAboveNyquist : Obligations.SilenceAtAndAboveNyquist := by
  intro s x hs hready hw hx hnyquist
  have hpos : 0 < x := lt_of_lt_of_le (half_pos (Nat.cast_pos.mpr params_wf.rate_pos)) hnyquist
  have hsilent :=
    params_wf.num_conforms.silent s.waveform s.frequencyHz x _ hw hx hnyquist (advance_lt_params_rate hs)
  rw [← hs.rate] at hsilent ⊢
  rw [exec_nextSample_of_inDomain hready ⟨x, hx, hpos⟩, hsilent, advance_eq_mod hs.phase_lt]

end Sys2Proof.Machine
end

section
/-! Proofs of the statements on the commands of the oscillator (41_oscillator_commands.md): what each command does where it is
accepted and that none executes elsewhere (R67 to R71), the step function of R74 case by case, and, over whole runs, the count
of the samples by the phase and the stream of samples (R72). -/

namespace Sys2Proof.Machine

/-! ### The three commands (R67 to R71) -/

/-- R68 step 2 in a state that accepts a command: FREQ_DOMAIN and nothing else. -/
theorem exec_nextSample_of_not_inDomain {s : State} (hs : cmdReady s = true) (hf : ¬ InDomain s.frequencyHz) :
    exec .nextSample s = .next { s with fault := .freqDomain } := by
  obtain ⟨-, hnext⟩ | ⟨hpos, -⟩ := nextSampleOn_cases params.num.toNumFormat s
  · exact (whenAccepted_ready hs _).trans (congrArg Host.Outcome.next hnext)
  · exact absurd ((positive_iff_inDomain s.frequencyHz).mp hpos) hf

/-- Settles O6: the comparison with the sample rate in the statement is `advance`. -/
theorem nextSampleAdvancesThenEmits : Obligations.NextSampleAdvancesThenEmits := fun _ hs =>
  ⟨fun x hx hpos => exec_nextSample_of_inDomain hs ⟨x, hx, hpos⟩, exec_nextSample_of_not_inDomain hs⟩

/-- Settles O7: the completion of `set_waveform` in a ready state. -/
theorem setWaveformWritesWaveformOnly : Obligations.SetWaveformWritesWaveformOnly := fun w _ hs =>
  exec_setWaveform_of_ready hs w

/-- Settles O8: the completion of `set_frequency` in a ready state, which asks nothing of the operand. -/
theorem setFrequencyWritesFrequencyOnly : Obligations.SetFrequencyWritesFrequencyOnly := fun arg _ hs =>
  exec_setFrequency_of_ready hs arg

/-- Settles O14: the first datum leaves the block ready, and the second takes its place. -/
theorem replacedFrequencyLeavesNoTrace : Obligations.ReplacedFrequencyLeavesNoTrace := fun a b s hs =>
  ⟨_, exec_setFrequency_of_ready hs a,
    (exec_setFrequency_of_ready (s := { s with frequencyHz := params.num.dec a }) hs b).trans
      (exec_setFrequency_of_ready hs b).symm⟩

/-- Settles O12: a fault or a waiting sample makes the block not ready, and each command asks for acceptance first. -/
theorem nothingExecutesUnlessAccepted : Obligations.NothingExecutesUnlessAccepted := by
  intro i s h
  have hready : cmdReady s = false := by
    rw [Bool.eq_false_iff, Ne, cmdReady_iff]
    exact not_and_or.mpr h
  cases i with
  | nextSample => exact whenAccepted_not_ready hready _
  | setWaveform w => exact whenAccepted_not_ready hready _
  | setFrequency arg => exact whenAccepted_not_ready hready _

/-- Settles O16: on a legal phase the gate of R69 is the remainder. -/
theorem advanceWrapsAtTheSampleRate : Obligations.AdvanceWrapsAtTheSampleRate := fun _ p hp =>
  ⟨rfl, advance_eq_mod hp, advance_lt (Nat.zero_lt_of_lt hp) p⟩

/-! ### The step (R73, R74, R84) -/

/-- R86: a moment with `rst = 1` is a reset, whatever else it offers. -/
theorem playMoment_reset {m : Moment} (hrst : m.rst = true) (s : State) : playMoment m s = .next (resetBlock s) := by
  simp [playMoment, hrst]

/-- R73, R84: with the port empty, a moment at which no word is accepted changes nothing, be it that none is presented, that
the block is not ready or that no word is left. -/
theorem playMoment_idle {m : Moment} {s : State} (hrst : m.rst = false) (hsmp : s.smp = none)
    (hidle : m.cmdValid = false ∨ cmdReady s = false ∨ s.cmds = []) : playMoment m s = .next s := by
  have hport : smpValid s = false := by simp [smpValid, hsmp]
  obtain hvalid | hready | hw := hidle
  · simp [playMoment, hrst, hport, hvalid]
  · simp [playMoment, hrst, hport, hready]
  · simp [playMoment, hrst, hport, hw]

/-- Settles O28: with no word presented, or none left, the moment is idle. -/
theorem idleBlockKeepsItsState : Obligations.IdleBlockKeepsItsState := fun _ _ _ henv hrst hsmp hnone =>
  (step_moment henv).trans (playMoment_idle hrst hsmp (hnone.imp_right .inr))

/-- R84: a halted block idles until it is reset. -/
theorem step_of_halted {s : State} {m : Moment} {ms : List Moment} (henv : s.env = m :: ms) (hrst : m.rst = false)
    (hf : s.fault ≠ .none) (hsmp : s.smp = none) : step s = .next { s with env := ms } := by
  have hready : cmdReady { s with env := ms } = false := by simp [cmdReady, hf]
  exact (step_moment henv).trans (playMoment_idle hrst hsmp (.inr (.inl hready)))

/-- R27: a word presented to a ready block is taken off the owner's list and accepted, whether it spells a command or not. -/
theorem step_of_presented_word {s : State} {m : Moment} {ms : List Moment} {w : ℕ} {ws : List ℕ}
    (henv : s.env = m :: ms) (hrst : m.rst = false) (hvalid : m.cmdValid = true) (hready : cmdReady s = true)
    (hw : s.cmds = w :: ws) : step s = acceptWord w { s with cmds := ws, env := ms } :=
  (step_moment henv).trans (playMoment_accept (s := { s with env := ms }) hrst hvalid hready hw)

/-- Settles O20: a halted block idles; a ready one accepts the word, which is illegal or is one of the three commands. -/
theorem stepFunctionOnAnAcceptedWord : Obligations.StepFunctionOnAnAcceptedWord := by
  refine ⟨fun s m ms henv hrst hf hsmp => step_of_halted henv hrst hf hsmp, ?_⟩
  intro s m ms w ws henv hrst hvalid hf hsmp hw
  have hready : cmdReady s = true := (cmdReady_iff s).mpr ⟨hf, hsmp⟩
  have hready' : cmdReady { s with cmds := ws, env := ms } = true := hready
  have hcommand {i : Instr} (hd : decode w = .command i) : step s = exec i { s with cmds := ws, env := ms } :=
    step_of_presented_command henv hrst hvalid hready hw hd
  refine ⟨fun ⟨why, hd⟩ => ?illegal, fun v hd => (hcommand hd).trans (exec_setWaveform_of_ready hready' v),
    fun arg hd => (hcommand hd).trans (exec_setFrequency_of_ready hready' arg),
    fun hd hdom => (hcommand hd).trans (exec_nextSample_of_inDomain hready' hdom),
    fun hd hdom => (hcommand hd).trans (exec_nextSample_of_not_inDomain hready' hdom)⟩
  case illegal =>
    rw [step_of_presented_word henv hrst hvalid hready hw, acceptWord_illegal hd]
    exact whenAccepted_ready hready' _

/-- Whatever the moment and the state, one of the rules for a moment applies: reset, take, hold, idle or accept. -/
theorem playMoment_answers_next (m : Moment) (s : State) : ∃ t, playMoment m s = .next t := by
  cases hrst : m.rst with
  | true => exact ⟨_, playMoment_reset hrst s⟩
  | false =>
    cases hsmp : s.smp with
    | some v =>
      cases hready : m.smpReady with
      | true => exact ⟨_, playMoment_take hrst hready hsmp⟩
      | false => exact ⟨_, playMoment_hold hrst hready hsmp⟩
    | none =>
      by_cases hidle : m.cmdValid = false ∨ cmdReady s = false ∨ s.cmds = []
      · exact ⟨_, playMoment_idle hrst hsmp hidle⟩
      · simp only [not_or, Bool.not_eq_false] at hidle
        obtain ⟨hvalid, hready, hw⟩ := hidle
        obtain ⟨w, ws, hw⟩ := List.exists_cons_of_ne_nil hw
        rw [playMoment_accept hrst hvalid hready hw]
        exact acceptWord_ready w hready

/-- Settles O22: with no moment left a step answers the state itself, and every moment answers a next state. -/
theorem stepAlwaysAnswersNext : Obligations.StepAlwaysAnswersNext := by
  intro s
  cases henv : s.env with
  | nil => exact ⟨s, step_quiet henv⟩
  | cons m ms => exact step_moment henv ▸ playMoment_answers_next m { s with env := ms }

/-! ### The phase counts the samples (R72) -/

/-- From `s` to `t` some samples are emitted, and the phase goes on by as many, modulo the sample rate (R72). -/
def PhaseCounts (s t : State) : Prop :=
  ∃ k, emitted t = emitted s + k ∧ t.phaseIndex = (s.phaseIndex + k) % params.sampleRate

theorem Invariant.phase_lt_params_rate {s : State} (hs : Invariant s) : s.phaseIndex < params.sampleRate :=
  hs.rate ▸ hs.phase_lt

theorem phaseCounts_of_unchanged {s t : State} (hs : Invariant s) (hcount : emitted t = emitted s)
    (hphase : t.phaseIndex = s.phaseIndex) : PhaseCounts s t :=
  ⟨0, hcount, hphase.trans (Nat.mod_eq_of_lt hs.phase_lt_params_rate).symm⟩

theorem PhaseCounts.trans {s t u : State} (hst : PhaseCounts s t) (htu : PhaseCounts t u) : PhaseCounts s u := by
  obtain ⟨j, hcount, hphase⟩ := hst
  obtain ⟨k, hcount', hphase'⟩ := htu
  exact ⟨j + k, by omega, by rw [hphase', hphase, Nat.mod_add_mod, add_assoc]⟩

/-- R68, R69: a command that emits finds the port empty and advances the phase by 1; every other one touches neither. -/
theorem exec_phaseCounts {i : Instr} {s t : State} (hs : Invariant s) (h : exec i s = .next t) : PhaseCounts s t := by
  obtain ⟨hready, hcases⟩ := exec_cases h
  have hsmp : s.smp = none := ((cmdReady_iff s).mp hready).2
  obtain ⟨-, -, rfl⟩ | ⟨-, -, rfl⟩ | ⟨w, -, rfl⟩ | ⟨arg, -, rfl⟩ := hcases
  · exact phaseCounts_of_unchanged hs rfl rfl
  · exact ⟨1, by simp [emitted, hsmp], hs.rate ▸ advance_eq_mod hs.phase_lt⟩
  · exact phaseCounts_of_unchanged hs rfl rfl
  · exact phaseCounts_of_unchanged hs rfl rfl

theorem acceptWord_phaseCounts {w : ℕ} {s t : State} (hs : Invariant s) (h : acceptWord w s = .next t) :
    PhaseCounts s t := by
  cases hd : decode w with
  | command i =>
    rw [acceptWord_command hd] at h
    exact exec_phaseCounts hs h
  | illegal why =>
    rw [acceptWord_illegal hd] at h
    obtain ⟨-, rfl⟩ := whenAccepted_next h
    exact phaseCounts_of_unchanged hs rfl rfl

/-- A taken sample stays among those emitted; an accepted word may emit one. -/
theorem transfer_phaseCounts {s t : State} (hs : Invariant s) (h : Transfer s t) : PhaseCounts s t := by
  cases h with
  | take hv => exact phaseCounts_of_unchanged hs (by simp [emitted, hv]) rfl
  | accept _ hw haccept =>
    have hcounts := acceptWord_phaseCounts (dropped_word_keeps_invariant hs hw) haccept
    exact hcounts

theorem step_phaseCounts {s t : State} (hs : Invariant s) (hrst : NoReset (s.env.take 1)) (h : step s = .next t) :
    PhaseCounts s t := by
  obtain ⟨-, rfl⟩ | ⟨m, ms, henv, hplay⟩ := step_cases h
  · exact phaseCounts_of_unchanged hs rfl rfl
  · have hm : m.rst = false := hrst m (by simp [henv])
    have hs' : Invariant { s with env := ms } := { hs with }
    obtain rfl | htransfer := playMoment_eq_or_transfer hm hplay
    · exact phaseCounts_of_unchanged hs rfl rfl
    · have hcounts := transfer_phaseCounts hs' htransfer
      exact hcounts

theorem runFor_phaseCounts {n : ℕ} {s t : State} (hs : Invariant s) (hrst : NoReset (s.env.take n))
    (h : runFor n s = .next t) : PhaseCounts s t := by
  induction n generalizing s with
  | zero =>
    obtain rfl := Host.Outcome.next.inj h
    exact phaseCounts_of_unchanged hs rfl rfl
  | succ n ih =>
    obtain ⟨u, hstep, hrun⟩ := runFor_succ_next h
    have hfirst : NoReset (s.env.take 1) := fun m hm => hrst m (List.take_subset_take_left _ (by omega) hm)
    have hrest : NoReset (u.env.take n) := fun m hm => by
      rw [step_env hstep, ← List.drop_one, List.take_drop, add_comm] at hm
      exact hrst m (List.mem_of_mem_drop hm)
    exact (step_phaseCounts hs hfirst hstep).trans (ih (invariantIsKeptByEveryStep s u hs hstep) hrest hrun)

/-- Settles O34: the count of a run is the sum of the counts of its steps. -/
theorem phaseCountsEmittedSamples : Obligations.PhaseCountsEmittedSamples := by
  intro n s t hs hrst h
  obtain ⟨k, hcount, hphase⟩ := runFor_phaseCounts hs hrst h
  rw [hcount, Nat.add_sub_cancel_left]
  exact ⟨Nat.le_add_right _ _, hphase⟩

/-! ### The stream of samples (R72) -/

/-- The `i`-th sample after `s`, counted from 1, where nothing but `next_sample` runs. -/
def streamSample (s : State) (i : ℕ) : Datum :=
  params.num.synth s.waveform s.frequencyHz s.sampleRate ((s.phaseIndex + i) % s.sampleRate)

/-- The state after `n` samples from `s`, each taken, with `ws` and `ms` the words and the moments then left. -/
def afterSamples (n : ℕ) (s : State) (ws : List ℕ) (ms : List Moment) : State :=
  { s with
    phaseIndex := (s.phaseIndex + n) % s.sampleRate
    cmds := ws
    env := ms
    taken := s.taken ++ (List.range n).map (fun i => streamSample s (i + 1)) }

theorem afterSamples_zero {s : State} (hp : s.phaseIndex < s.sampleRate) : afterSamples 0 s s.cmds s.env = s := by
  simp [afterSamples, Nat.mod_eq_of_lt hp]

theorem streamSample_afterSamples (k : ℕ) (s : State) (ws : List ℕ) (ms : List Moment) (i : ℕ) :
    streamSample (afterSamples k s ws ms) i = streamSample s (k + i) := by
  simp [streamSample, afterSamples, add_assoc]

/-- One sample and then `n` more are `n + 1` samples. -/
theorem afterSamples_afterSamples_one (n : ℕ) (s : State) (ws ws' : List ℕ) (ms ms' : List Moment) :
    afterSamples n (afterSamples 1 s ws' ms') ws ms = afterSamples (n + 1) s ws ms := by
  have hphase : ((s.phaseIndex + 1) % s.sampleRate + n) % s.sampleRate = (s.phaseIndex + (n + 1)) % s.sampleRate := by
    rw [Nat.mod_add_mod, add_assoc, add_comm 1 n]
  have htaken : (afterSamples 1 s ws' ms').taken ++
        (List.range n).map (fun i => streamSample (afterSamples 1 s ws' ms') (i + 1)) =
      s.taken ++ (List.range (n + 1)).map (fun i => streamSample s (i + 1)) := by
    simp only [streamSample_afterSamples]
    simp [afterSamples, List.range_succ_eq_map, Function.comp_def, add_comm]
  rw [afterSamples, htaken]
  simp only [afterSamples, hphase]

/-- R28, R68: a `next_sample` word presented, and its sample taken at the next moment. -/
theorem runFor_sample (n : ℕ) {s : State} {ws : List ℕ} {ms : List Moment} (hready : cmdReady s = true)
    (hdom : InDomain s.frequencyHz) (hp : s.phaseIndex < s.sampleRate) (hw : s.cmds = 0 :: ws)
    (henv : s.env = Moment.present :: Moment.take :: ms) :
    runFor (n + 2) s = runFor n (afterSamples 1 s ws ms) := by
  have hsmp : s.smp = none := ((cmdReady_iff s).mp hready).2
  have hemit : step s = .next { s with
      phaseIndex := advance s.sampleRate s.phaseIndex
      smp := some (streamSample s 1)
      cmds := ws
      env := Moment.take :: ms } := by
    rw [step_of_presented_command henv rfl rfl hready hw (decode_encode .nextSample)]
    rw [streamSample, ← advance_eq_mod hp]
    exact exec_nextSample_of_inDomain (s := { s with cmds := ws, env := Moment.take :: ms }) hready hdom
  rw [runFor_succ_of_step hemit, runFor_succ_of_step (sampleIsTakenWhenReady _ _ _ _ rfl rfl rfl rfl)]
  simp [afterSamples, advance_eq_mod hp, hsmp]

/-- R72 for any state with a legal phase: by induction on the number of samples, one at a time from the front. -/
theorem runFor_sampling (n : ℕ) {s : State} {ws : List ℕ} {ms : List Moment} (hready : cmdReady s = true)
    (hdom : InDomain s.frequencyHz) (hp : s.phaseIndex < s.sampleRate) (hw : s.cmds = List.replicate n 0 ++ ws)
    (henv : s.env = sampling n ++ ms) : runFor (2 * n) s = .next (afterSamples n s ws ms) := by
  induction n generalizing s with
  | zero =>
    obtain rfl : s.cmds = ws := hw
    obtain rfl : s.env = ms := henv
    exact congrArg Host.Outcome.next (afterSamples_zero hp).symm
  | succ n ih =>
    have hp' : (s.phaseIndex + 1) % s.sampleRate < s.sampleRate := Nat.mod_lt _ (Nat.zero_lt_of_lt hp)
    rw [Nat.mul_succ, runFor_sample (2 * n) hready hdom hp hw henv,
      ← afterSamples_afterSamples_one n s ws (List.replicate n 0 ++ ws) ms (sampling n ++ ms)]
    exact ih (s := afterSamples 1 s _ _) hready hdom hp' rfl rfl

/-- Settles O35: under the invariant the phase is legal and the rate is the configuration's. -/
theorem streamOfSamples : Obligations.StreamOfSamples := by
  intro n s ws ms hs hready hdom hw henv
  rw [runFor_sampling n hready hdom hs.phase_lt hw henv, ← hs.rate]
  rfl

end Sys2Proof.Machine
end

section
/-! Proofs of the statements on the faults (60_exceptions.md): FREQ_DOMAIN is raised at use (R82), ILLEGAL_CMD by an illegal
word, with no other effect (R81, R83), and a halted block stays as it is until a reset (R84). -/

namespace Sys2Proof.Machine

/-! ### FREQ_DOMAIN (R82) -/

/-- The four kinds of datum that R82 names lie outside the domain of R61. -/
theorem not_inDomain_of_bad {d : Datum} (hbad : params.num.val d = .nan ∨ params.num.val d = .posInf ∨
    params.num.val d = .negInf ∨ ∃ x, params.num.val d = .real x ∧ x ≤ 0) : ¬ InDomain d := by
  rintro ⟨y, hy, hpos⟩
  obtain h | h | h | ⟨x, h, hx⟩ := hbad
  · cases hy.symm.trans h
  · cases hy.symm.trans h
  · cases hy.symm.trans h
  · obtain rfl := NumVal.real.inj (hy.symm.trans h)
    exact hx.not_gt hpos

/-- Settles O10: the setters look at no datum, so they complete and leave the block ready; `next_sample` does look. -/
theorem badFrequencyFaultsAtUse : Obligations.BadFrequencyFaultsAtUse := by
  refine ⟨fun s => resetBlock_fault s, fun s arg w hready hbad => ?_⟩
  have hfault : s.fault = .none := ((cmdReady_iff s).mp hready).1
  refine ⟨_, _, exec_setFrequency_of_ready hready arg, hfault, exec_setWaveform_of_ready ?ready w, hfault,
    exec_nextSample_of_not_inDomain ?ready' (not_inDomain_of_bad hbad)⟩
  case ready => exact hready
  case ready' => exact hready

/-! ### ILLEGAL_CMD (R81) -/

/-- Settles O21: the words named are those that decode to `Illegal`, and R74 gives the step on such a word. -/
theorem illegalWordRaisesAndNothingElse : Obligations.IllegalWordRaisesAndNothingElse := by
  intro s m ms w ws henv hrst hvalid hready hw hword
  obtain ⟨hfault, hsmp⟩ := (cmdReady_iff s).mp hready
  obtain ⟨-, hstep⟩ := stepFunctionOnAnAcceptedWord
  obtain ⟨hillegal, -⟩ := hstep s m ms w ws henv hrst hvalid hfault hsmp hw
  exact hillegal ((illegalWordsAreThese w).mpr hword)

/-! ### Halted until reset (R84) -/

/-- Where each of the next `n` moments passes without effect, a run of `n` steps only uses them up. -/
theorem runFor_of_moments_pass {n : ℕ} {s : State}
    (hpass : ∀ m ∈ s.env.take n, ∀ ms, playMoment m { s with env := ms } = .next { s with env := ms }) :
    runFor n s = .next { s with env := s.env.drop n } := by
  induction n generalizing s with
  | zero => rfl
  | succ n ih =>
    cases henv : s.env with
    | nil =>
      rw [runFor_succ_of_step (step_quiet henv), ih (by simp [henv]), henv, List.drop_nil, List.drop_nil]
    | cons m ms =>
      rw [henv, List.take_succ_cons, List.forall_mem_cons] at hpass
      obtain ⟨hfirst, hrest⟩ := hpass
      rw [runFor_succ_of_step ((step_moment henv).trans (hfirst ms)), List.drop_succ_cons]
      exact ih (s := { s with env := ms }) hrest

/-- R84: no moment but a reset has an effect on a halted block. -/
theorem runFor_of_halted {n : ℕ} {s : State} (hfault : s.fault ≠ .none) (hsmp : s.smp = none)
    (hrst : NoReset (s.env.take n)) : runFor n s = .next { s with env := s.env.drop n } :=
  runFor_of_moments_pass fun m hm ms =>
    have hready : cmdReady { s with env := ms } = false := by simp [cmdReady, hfault]
    playMoment_idle (hrst m hm) hsmp (.inr (.inl hready))

/-- R84: a halted block signals neither readiness nor a sample, whatever the level of `rst`. -/
theorem outputs_low_of_halted {s : State} (hfault : s.fault ≠ .none) (hsmp : s.smp = none) (rst : Bool) :
    (outputs rst s).cmdReady = false ∧ (outputs rst s).smpValid = false := by
  rw [Bool.eq_false_iff, Bool.eq_false_iff, Ne, Ne, outputs_cmdReady_iff, outputs_smpValid_iff]
  exact ⟨fun ⟨_, hf, _⟩ => hfault hf, fun ⟨_, hv⟩ => hv hsmp⟩

/-- R86, R93: a step at a moment with `rst = 1` is a reset and nothing else. -/
theorem step_of_reset {s : State} {m : Moment} {ms : List Moment} (henv : s.env = m :: ms) (hrst : m.rst = true) :
    step s = .next (resetBlock { s with env := ms }) :=
  (step_moment henv).trans (playMoment_reset hrst _)

/-- Settles O24: a reset clears the fault and empties the port, which is readiness; under the invariant a halted block has no
sample waiting, so it idles and both handshake outputs are low. -/
theorem haltedUntilReset : Obligations.HaltedUntilReset := by
  refine ⟨fun s m ms henv hrst => ⟨_, step_of_reset henv hrst, rfl, ?ready⟩, fun n s hs hfault hrst => ?halted⟩
  case ready => exact (outputs_cmdReady_iff false _).mpr ⟨rfl, rfl, rfl⟩
  case halted =>
    have hsmp : s.smp = none := hs.halted_silent hfault
    exact ⟨runFor_of_halted hfault hsmp hrst, fun rst => outputs_low_of_halted hfault hsmp rst⟩

end Sys2Proof.Machine
end

section
/-! Proofs of the statements on reset and hazards (70_reset_and_hazards.md): what a reset leaves (R93, R94) and that nothing from
before it shows after it (R96), the runs that end well (R106), the order of the setters and the way to the first sample (R97,
R98), and the wrap of the angle (R101). -/

namespace Sys2Proof.Machine

/-! ### Runs of any length: they are carried out, and keep what every step keeps -/

/-- What every step keeps holds at the end of every run, and no run stops before its end (O22). -/
theorem runFor_keeps {P : State → Prop} (hkeep : ∀ s t, P s → step s = .next t → P t) (n : ℕ) {s : State} (hs : P s) :
    ∃ t, runFor n s = .next t ∧ P t := by
  induction n generalizing s with
  | zero => exact ⟨s, rfl, hs⟩
  | succ n ih =>
    obtain ⟨u, hstep⟩ := stepAlwaysAnswersNext s
    rw [runFor_succ_of_step hstep]
    exact ih (hkeep s u hs hstep)

theorem runFor_answers_next (n : ℕ) (s : State) : ∃ t, runFor n s = .next t := by
  obtain ⟨t, hrun, -⟩ := runFor_keeps (P := fun _ => True) (fun _ _ _ _ => trivial) n (s := s) trivial
  exact ⟨t, hrun⟩

/-! ### A run does not look at the samples taken before it (R75, R96) -/

/-- The state, had `vs` been taken before all that it shows as taken. -/
def takenBefore (vs : List Datum) (s : State) : State :=
  { s with taken := vs ++ s.taken }

/-- R33, R73, R84: a moment passes without effect where a waiting sample is not taken, and where the port is empty and no word
can be accepted. -/
theorem playMoment_pass {m : Moment} {s : State} (hrst : m.rst = false)
    (hpass : (s.smp ≠ none ∧ m.smpReady = false) ∨
      (s.smp = none ∧ (s.fault ≠ .none ∨ m.cmdValid = false ∨ s.cmds = []))) : playMoment m s = .next s := by
  obtain ⟨hsmp, hready⟩ | ⟨hsmp, hfault | hvalid | hw⟩ := hpass
  · obtain ⟨v, hv⟩ := Option.ne_none_iff_exists'.mp hsmp
    exact playMoment_hold hrst hready hv
  · exact playMoment_idle hrst hsmp (.inr (.inl (by simp [cmdReady, hfault])))
  · exact playMoment_idle hrst hsmp (.inl hvalid)
  · exact playMoment_idle hrst hsmp (.inr (.inr hw))

section TakenBefore

variable (vs : List Datum) {s t : State}

theorem nextSampleOn_takenBefore (N : NumFormat Datum) (s : State) :
    nextSampleOn N (takenBefore vs s) = takenBefore vs (nextSampleOn N s) := by
  simp only [nextSampleOn, takenBefore]
  cases sampleAt N s.waveform s.frequencyHz s.sampleRate s.phaseIndex <;> rfl

theorem exec_takenBefore {i : Instr} (h : exec i s = .next t) :
    exec i (takenBefore vs s) = .next (takenBefore vs t) := by
  cases i with
  | nextSample =>
    obtain ⟨hready, rfl⟩ := whenAccepted_next h
    rw [← nextSampleOn_takenBefore]
    exact whenAccepted_ready hready _
  | setWaveform w =>
    obtain ⟨hready, rfl⟩ := whenAccepted_next h
    exact exec_setWaveform_of_ready (s := takenBefore vs s) hready w
  | setFrequency arg =>
    obtain ⟨hready, rfl⟩ := whenAccepted_next h
    exact exec_setFrequency_of_ready (s := takenBefore vs s) hready arg

theorem acceptWord_takenBefore {w : ℕ} (h : acceptWord w s = .next t) :
    acceptWord w (takenBefore vs s) = .next (takenBefore vs t) := by
  cases hd : decode w with
  | command i =>
    rw [acceptWord_command hd] at h ⊢
    exact exec_takenBefore vs h
  | illegal why =>
    rw [acceptWord_illegal hd] at h ⊢
    obtain ⟨hready, rfl⟩ := whenAccepted_next h
    exact whenAccepted_ready hready _

theorem playMoment_takenBefore {m : Moment} (h : playMoment m s = .next t) :
    playMoment m (takenBefore vs s) = .next (takenBefore vs t) := by
  obtain ⟨hrst, rfl⟩ | ⟨hrst, v, hv, hready, rfl⟩ | ⟨hrst, rfl, hpass⟩ | ⟨hrst, hvalid, hready, w, ws, hw, haccept⟩ :=
    playMoment_cases h
  · exact playMoment_reset hrst _
  · rw [playMoment_take (s := takenBefore vs s) hrst hready hv]
    simp [takenBefore]
  · exact playMoment_pass hrst hpass
  · rw [playMoment_accept (s := takenBefore vs s) hrst hvalid hready hw]
    exact acceptWord_takenBefore vs haccept

theorem step_takenBefore (h : step s = .next t) : step (takenBefore vs s) = .next (takenBefore vs t) := by
  obtain ⟨henv, rfl⟩ | ⟨m, ms, henv, hplay⟩ := step_cases h
  · exact step_quiet henv
  · exact (step_moment (s := takenBefore vs s) henv).trans (playMoment_takenBefore vs hplay)

theorem runFor_takenBefore {n : ℕ} (h : runFor n s = .next t) :
    runFor n (takenBefore vs s) = .next (takenBefore vs t) := by
  induction n generalizing s with
  | zero =>
    obtain rfl := Host.Outcome.next.inj h
    rfl
  | succ n ih =>
    obtain ⟨u, hstep, hrun⟩ := runFor_succ_next h
    exact (runFor_succ_of_step (step_takenBefore vs hstep)).trans (ih hrun)

end TakenBefore

/-! ### What a reset leaves (R93, R94, R96) -/

/-- Settles O29: at the configuration's rate the block after a reset is `State.reset`, and `rst = 1` lowers both handshake
outputs. -/
theorem resetRestoresTheResetState : Obligations.ResetRestoresTheResetState := by
  intro s m ms henv hrst hrate
  refine ⟨?_, rfl, rfl⟩
  rw [step_of_reset henv hrst, resetBlock, hrate]
  rfl

/-- A block just reset, with `ms` to come and nothing taken yet. The state before the reset counts for its rate and its words. -/
def restarted (s : State) (ms : List Moment) : State :=
  resetBlock { s with env := ms, taken := [] }

theorem restarted_congr {s t : State} (hcmds : s.cmds = t.cmds) (hrate : s.sampleRate = t.sampleRate) (ms : List Moment) :
    restarted s ms = restarted t ms := by
  simp [restarted, resetBlock, hcmds, hrate]

/-- R94: a reset is a restart that keeps the samples taken before it. -/
theorem step_of_restart {s : State} {m : Moment} {ms : List Moment} (henv : s.env = m :: ms) (hrst : m.rst = true) :
    step s = .next (takenBefore s.taken (restarted s ms)) := by
  rw [step_of_reset henv hrst]
  simp [takenBefore, restarted, resetBlock]

theorem runFor_of_restart {n : ℕ} {s u : State} {m : Moment} {ms : List Moment} (henv : s.env = m :: ms)
    (hrst : m.rst = true) (hrun : runFor n (restarted s ms) = .next u) :
    runFor (n + 1) s = .next (takenBefore s.taken u) :=
  (runFor_succ_of_step (step_of_restart henv hrst)).trans (runFor_takenBefore s.taken hrun)

/-- Settles O30: both blocks restart in one and the same state, and the run from there does not look at what either had taken
before. -/
theorem restartRepeatsTheSamples : Obligations.RestartRepeatsTheSamples := by
  intro n s t m ms hs ht hrst hcmds hrate
  obtain ⟨u, hrun⟩ := runFor_answers_next n (restarted s ms)
  have hrun' : runFor n (restarted t ms) = .next u := restarted_congr hcmds hrate ms ▸ hrun
  exact ⟨_, _, u.taken, runFor_of_restart hs hrst hrun, runFor_of_restart ht hrst hrun', rfl, rfl, rfl⟩

/-! ### Runs that end well (R75, R106) -/

/-- The word spells a command, and one that stores no frequency outside the domain. -/
def SafeWord (w : ℕ) : Prop :=
  (∃ i, decode w = .command i) ∧ ∀ arg, decode w = .command (.setFrequency arg) → InDomain (params.num.dec arg)

/-- Neither of the two bad ends of R106 has been reached, and neither can be from here: no word to come is illegal, and the
frequency held, sent or restored by a reset is in the domain. -/
structure OnlyGoodEnds (s : State) : Prop where
  fault_none : s.fault = .none
  freq_inDomain : InDomain s.frequencyHz
  reset_inDomain : NoReset s.env ∨ InDomain params.initFrequency
  words_safe : ∀ w ∈ s.cmds, SafeWord w

theorem exec_keeps_onlyGoodEnds {i : Instr} {s t : State} (hs : OnlyGoodEnds s)
    (harg : ∀ arg, i = .setFrequency arg → InDomain (params.num.dec arg)) (h : exec i s = .next t) : OnlyGoodEnds t := by
  obtain ⟨-, ⟨-, hneg, -⟩ | ⟨-, -, rfl⟩ | ⟨w, -, rfl⟩ | ⟨arg, hi, rfl⟩⟩ := exec_cases h
  · rw [(positive_iff_inDomain s.frequencyHz).mpr hs.freq_inDomain] at hneg
    cases hneg
  · exact { hs with }
  · exact { hs with }
  · exact { hs with freq_inDomain := harg arg hi }

theorem acceptWord_keeps_onlyGoodEnds {w : ℕ} {s t : State} (hs : OnlyGoodEnds s) (hw : SafeWord w)
    (h : acceptWord w s = .next t) : OnlyGoodEnds t := by
  obtain ⟨⟨i, hd⟩, hfreq⟩ := hw
  rw [acceptWord_command hd] at h
  exact exec_keeps_onlyGoodEnds hs (fun arg hi => hfreq arg (hi ▸ hd)) h

theorem playMoment_keeps_onlyGoodEnds {m : Moment} {s t : State} (hs : OnlyGoodEnds s)
    (hinit : m.rst = true → InDomain params.initFrequency) (h : playMoment m s = .next t) : OnlyGoodEnds t := by
  obtain ⟨hrst, rfl⟩ | ⟨-, v, -, -, rfl⟩ | ⟨-, rfl, -⟩ | ⟨-, -, -, w, ws, hw, haccept⟩ := playMoment_cases h
  · exact ⟨rfl, hinit hrst, .inr (hinit hrst), hs.words_safe⟩
  · exact { hs with }
  · exact hs
  · have hwords := hs.words_safe
    rw [hw, List.forall_mem_cons] at hwords
    obtain ⟨hfirst, hrest⟩ := hwords
    have hs' : OnlyGoodEnds { s with cmds := ws } := { hs with words_safe := hrest }
    exact acceptWord_keeps_onlyGoodEnds hs' hfirst haccept

theorem step_keeps_onlyGoodEnds (s t : State) (hs : OnlyGoodEnds s) (h : step s = .next t) : OnlyGoodEnds t := by
  obtain ⟨-, rfl⟩ | ⟨m, ms, henv, hplay⟩ := step_cases h
  · exact hs
  have hreset := hs.reset_inDomain
  rw [henv, NoReset, List.forall_mem_cons] at hreset
  have hinit : m.rst = true → InDomain params.initFrequency := fun hrst =>
    hreset.resolve_left fun hno => by simp [hrst] at hno
  have hs' : OnlyGoodEnds { s with env := ms } := { hs with reset_inDomain := hreset.imp_left And.right }
  exact playMoment_keeps_onlyGoodEnds hs' hinit hplay

/-- Settles O37: the conditions are kept by every step, and a fault is against them. -/
theorem onlyTwoWaysToEndBadly : Obligations.OnlyTwoWaysToEndBadly := by
  intro n s hfault hfreq hreset hwords
  obtain ⟨t, hrun, ht⟩ := runFor_keeps step_keeps_onlyGoodEnds n ⟨hfault, hfreq, hreset, hwords⟩
  exact ⟨t, hrun, ht.fault_none⟩

/-! ### The setters, and the way to the first sample (R97, R98) -/

/-- Settles O13: each setter leaves the block ready, and they write different fields. -/
theorem settersCommute : Obligations.SettersCommute := fun w arg s hs =>
  ⟨_, _, _, exec_setWaveform_of_ready hs w, exec_setFrequency_of_ready (s := { s with waveform := w }) hs arg,
    exec_setFrequency_of_ready hs arg,
    exec_setWaveform_of_ready (s := { s with frequencyHz := params.num.dec arg }) hs w⟩

section Settings

variable {s : State} {w : Waveform} {arg : ℕ} {ws : List ℕ} {ms : List Moment} (hready : cmdReady s = true)
include hready

/-- R70 over a run: the word of `set_waveform`, presented to a ready block. -/
theorem runFor_setWaveform {n : ℕ} (hw : s.cmds = encode (.setWaveform w) :: ws) (henv : s.env = Moment.present :: ms) :
    runFor (n + 1) s = runFor n { s with waveform := w, cmds := ws, env := ms } :=
  runFor_succ_of_step ((step_of_presented_command henv rfl rfl hready hw (decode_encode _)).trans
    (exec_setWaveform_of_ready (s := { s with cmds := ws, env := ms }) hready w))

/-- R71 over a run: the word of `set_frequency`, presented to a ready block. -/
theorem runFor_setFrequency {n : ℕ} (hw : s.cmds = encode (.setFrequency arg) :: ws)
    (henv : s.env = Moment.present :: ms) :
    runFor (n + 1) s = runFor n { s with frequencyHz := params.num.dec arg, cmds := ws, env := ms } :=
  runFor_succ_of_step ((step_of_presented_command henv rfl rfl hready hw (decode_encode _)).trans
    (exec_setFrequency_of_ready (s := { s with cmds := ws, env := ms }) hready arg))

/-- R98 from any ready state with a legal phase: the two settings are stored, and the sample is the one they give. -/
theorem runFor_settings_sample (hp : s.phaseIndex < s.sampleRate) (hdom : InDomain (params.num.dec arg))
    (hw : s.cmds = encode (.setWaveform w) :: encode (.setFrequency arg) :: encode .nextSample :: ws)
    (henv : s.env = Moment.present :: Moment.present :: Moment.present :: Moment.take :: ms) :
    runFor 4 s = .next (afterSamples 1 { s with waveform := w, frequencyHz := params.num.dec arg } ws ms) := by
  rw [runFor_setWaveform hready hw henv, runFor_setFrequency ?ready rfl rfl]
  case ready => exact hready
  exact runFor_sample 0 hready hdom hp rfl rfl

end Settings

/-- Settles O38: the reset state is ready and at phase 0, so the phase of the sample is `1 mod SAMPLE_RATE`. -/
theorem firstSampleAfterReset : Obligations.FirstSampleAfterReset := by
  intro w arg hdom
  refine ⟨_, runFor_settings_sample rfl params_wf.rate_pos hdom rfl rfl, ?_, ?_, rfl, rfl⟩
  · simp [afterSamples, streamSample, State.reset]
  · simp [afterSamples, State.reset]

end Sys2Proof.Machine

namespace Sys2Proof

/-! ### The wrap of the angle (R69, R101) -/

/-- The angle that the count would reach, gone on to the rate (R101): `f` turns. -/
theorem sineIdeal_at_rate (f : Freq) {sr : ℕ} (hsr : 1 ≤ sr) : sineIdeal f sr sr = Real.sin (2 * Real.pi * (f : ℝ)) := by
  have hsr0 : (sr : ℝ) ≠ 0 := Nat.cast_ne_zero.mpr (by omega)
  rw [sineIdeal]
  congr 1
  field_simp

/-- Settles O49: the phase after the last one is 0, and an integer number of turns ends where it began (R64). -/
theorem wrapRestartsTheAngle : Obligations.WrapRestartsTheAngle := by
  intro f sr hsr
  obtain ⟨-, hzero, -, hperiod⟩ := periodicityInPhase .sine f sr 0 hsr
  refine ⟨advance_of_not_lt (by omega), hzero, sineIdeal_at_rate f hsr, fun n hn => ?_⟩
  have hwrap := hperiod n hn
  rw [zero_add, hzero] at hwrap
  exact hwrap

end Sys2Proof
end
